-- ==== Sys2Proof/Word.lean ====
section
/-! DEFINITION. The widths of the machine (10_state.md, 30_encoding.md R101): bytes, 16-bit words, 12-bit
addresses in an instruction, and the 4-bit indices that name registers, keys and sprite row counts. -/

namespace Sys2Proof

/-- An 8-bit value: a register, a timer, a byte of memory (10_state.md R30). -/
abbrev Byte := BitVec 8

/-- A 16-bit value: I, PC, a stack slot, an instruction word (10_state.md R30, 30_encoding.md R100). -/
abbrev Word := BitVec 16

/-- The 12-bit address field nnn of an instruction (30_encoding.md R101). -/
abbrev Addr12 := BitVec 12

/-- The name of a general register V0..VF; a 4-bit field can name no other (10_state.md R32). -/
abbrev Reg := Fin 16

/-- The name of a key 0x0..0xF (10_state.md R43). -/
abbrev Key := Fin 16

/-- The row count n of Dxyn, 0 to 15 (30_encoding.md R102). -/
abbrev RowCount := Fin 16

end Sys2Proof
end

