-- ==== Sys2Proof/Config.lean ====
section
/-! DEFINITION. What is fixed for a core and is not state (00_scope.md R7, R9; 10_state.md R31), and the free
values. Nothing here changes while the machine runs. -/

namespace Sys2Proof

/-- PROG_START: where `load` writes and where PC starts (00_scope.md R7). -/
abbrev Config.progStart : Nat := 0x200

/-- MAX_ROM = 4096 - 512 (00_scope.md R7). -/
abbrev Config.maxRom : Nat := 3584

/-- FONT_BASE, the open parameter of 00_scope.md R9 (D14). Its type is the spec's constraint
FONT_BASE + 16 * FONT_STRIDE <= 0x200, that is FONT_BASE <= 432; nothing else is known of it (log 2). -/
opaque Config.fontBase : Fin 433

/-- FONT_STRIDE, bytes per glyph (00_scope.md R9). PRESUMED: the spec takes it from general knowledge (log 3). -/
abbrev Config.fontStride : Nat := 5

/-- FONT_DATA by digit (10_state.md R47). PRESUMED: the spec takes the bytes from general knowledge (log 3). The last row is
digit F. -/
def Config.glyph (digit : Fin 16) : Vector Byte 5 :=
  match digit.val with
  | 0x0 => #v[0xF0, 0x90, 0x90, 0x90, 0xF0]
  | 0x1 => #v[0x20, 0x60, 0x20, 0x20, 0x70]
  | 0x2 => #v[0xF0, 0x10, 0xF0, 0x80, 0xF0]
  | 0x3 => #v[0xF0, 0x10, 0xF0, 0x10, 0xF0]
  | 0x4 => #v[0x90, 0x90, 0xF0, 0x10, 0x10]
  | 0x5 => #v[0xF0, 0x80, 0xF0, 0x10, 0xF0]
  | 0x6 => #v[0xF0, 0x80, 0xF0, 0x90, 0xF0]
  | 0x7 => #v[0xF0, 0x10, 0x20, 0x40, 0x40]
  | 0x8 => #v[0xF0, 0x90, 0xF0, 0x90, 0xF0]
  | 0x9 => #v[0xF0, 0x90, 0xF0, 0x10, 0xF0]
  | 0xA => #v[0xF0, 0x90, 0xF0, 0x90, 0x90]
  | 0xB => #v[0xE0, 0x90, 0xE0, 0x90, 0xE0]
  | 0xC => #v[0xF0, 0x80, 0x80, 0x80, 0xF0]
  | 0xD => #v[0xE0, 0x90, 0x90, 0x90, 0xE0]
  | 0xE => #v[0xF0, 0x80, 0xF0, 0x80, 0xF0]
  | _ => #v[0xF0, 0x80, 0xF0, 0x80, 0x80]

/-- The two legal values of SHIFT_SOURCE (00_scope.md R9). -/
inductive ShiftSource where
  | vx
  | vy
  deriving DecidableEq, Repr

/-- The default of SHIFT_SOURCE, VX (00_scope.md R9, D3): what a core has unless its maker chooses the other
value (log 4). -/
def Config.shiftSource : ShiftSource := .vx

/-- The free bytes: the draws of `RandByte` (42_alu.md R213, D23) and the bytes of program memory that
`reset()` leaves unspecified (70_reset_and_hazards.md R401, D17). Draw number k is `freeByte k`; no value of
it is known (logs 5 and 6). -/
opaque Config.freeByte : Nat → Byte

end Sys2Proof
end

