-- ==== Sys2Proof/Syntax.lean ====
section
/-! DEFINITION. The instructions: one constructor per row of spec/opcode_table.json (30_encoding.md R103),
with every field the row's pattern has, the ignored y of 8xy6 and 8xyE included (R106). -/

namespace Sys2Proof

/-- The 34 instructions (30_encoding.md R103). Field names are the spec's (R101, R102). -/
inductive Instr where
  /-- 00E0 -/ | cls
  /-- 00EE -/ | ret
  /-- 1nnn -/ | jp (nnn : Addr12)
  /-- 2nnn -/ | call (nnn : Addr12)
  /-- 3xnn -/ | seImm (x : Reg) (nn : Byte)
  /-- 4xnn -/ | sneImm (x : Reg) (nn : Byte)
  /-- 5xy0 -/ | seReg (x y : Reg)
  /-- 6xnn -/ | ldImm (x : Reg) (nn : Byte)
  /-- 7xnn -/ | addImm (x : Reg) (nn : Byte)
  /-- 8xy0 -/ | ldReg (x y : Reg)
  /-- 8xy1 -/ | orReg (x y : Reg)
  /-- 8xy2 -/ | andReg (x y : Reg)
  /-- 8xy3 -/ | xorReg (x y : Reg)
  /-- 8xy4 -/ | addReg (x y : Reg)
  /-- 8xy5 -/ | sub (x y : Reg)
  /-- 8xy6 -/ | shr (x y : Reg)
  /-- 8xy7 -/ | subn (x y : Reg)
  /-- 8xyE -/ | shl (x y : Reg)
  /-- 9xy0 -/ | sneReg (x y : Reg)
  /-- Annn -/ | ldI (nnn : Addr12)
  /-- Bnnn -/ | jpV0 (nnn : Addr12)
  /-- Cxnn -/ | rnd (x : Reg) (nn : Byte)
  /-- Dxyn -/ | drw (x y : Reg) (n : RowCount)
  /-- Ex9E -/ | skp (x : Reg)
  /-- ExA1 -/ | sknp (x : Reg)
  /-- Fx07 -/ | ldVxDt (x : Reg)
  /-- Fx0A -/ | ldVxK (x : Reg)
  /-- Fx15 -/ | ldDtVx (x : Reg)
  /-- Fx18 -/ | ldStVx (x : Reg)
  /-- Fx1E -/ | addIVx (x : Reg)
  /-- Fx29 -/ | ldFVx (x : Reg)
  /-- Fx33 -/ | ldBVx (x : Reg)
  /-- Fx55 -/ | ldMemVx (x : Reg)
  /-- Fx65 -/ | ldVxMem (x : Reg)
  deriving DecidableEq, Repr

/-- The instruction's name in spec/opcode_table.json (30_encoding.md R107: names only, no rule depends on
them). -/
def Instr.mnemonic : Instr → String
  | .cls => "CLS"
  | .ret => "RET"
  | .jp _ => "JP"
  | .call _ => "CALL"
  | .seImm _ _ => "SE_IMM"
  | .sneImm _ _ => "SNE_IMM"
  | .seReg _ _ => "SE_REG"
  | .ldImm _ _ => "LD_IMM"
  | .addImm _ _ => "ADD_IMM"
  | .ldReg _ _ => "LD_REG"
  | .orReg _ _ => "OR"
  | .andReg _ _ => "AND"
  | .xorReg _ _ => "XOR"
  | .addReg _ _ => "ADD_REG"
  | .sub _ _ => "SUB"
  | .shr _ _ => "SHR"
  | .subn _ _ => "SUBN"
  | .shl _ _ => "SHL"
  | .sneReg _ _ => "SNE_REG"
  | .ldI _ => "LD_I"
  | .jpV0 _ => "JP_V0"
  | .rnd _ _ => "RND"
  | .drw _ _ _ => "DRW"
  | .skp _ => "SKP"
  | .sknp _ => "SKNP"
  | .ldVxDt _ => "LD_VX_DT"
  | .ldVxK _ => "LD_VX_K"
  | .ldDtVx _ => "LD_DT_VX"
  | .ldStVx _ => "LD_ST_VX"
  | .addIVx _ => "ADD_I_VX"
  | .ldFVx _ => "LD_F_VX"
  | .ldBVx _ => "LD_B_VX"
  | .ldMemVx _ => "LD_MEM_VX"
  | .ldVxMem _ => "LD_VX_MEM"

end Sys2Proof
end

