-- ==== Sys2Proof/WellFormed.lean ====
section
/-! DEFINITION. What can be ill-formed on this machine. Every term of `Instr` is well-formed by its type: each
field has exactly its width and every value of a field is legal (10_state.md R32, 30_encoding.md R102, R106).
A raw 16-bit word can be no instruction (R105), a ROM can be too long (60_exceptions.md R362), and a font
placement can leave the reserved region (00_scope.md R9): these are the checks. -/

namespace Sys2Proof

/-- One row of the opcode map (30_encoding.md R103): its name and its mask and match words. -/
structure OpcodeRow where
  mnemonic : String
  mask : Word
  bits : Word
  deriving DecidableEq, Repr

/-- "A word matches a row when `(w & mask) = match`" (30_encoding.md R104). -/
def OpcodeRow.admits (row : OpcodeRow) (w : Word) : Bool := w &&& row.mask == row.bits

/-- Rows of R103 with every nibble fixed (family 0). -/
def fixedRows : List OpcodeRow :=
  [⟨"CLS", 0xFFFF, 0x00E0⟩, ⟨"RET", 0xFFFF, 0x00EE⟩]

/-- Rows of R103 that fix the family nibble only. -/
def familyRows : List OpcodeRow :=
  [⟨"JP", 0xF000, 0x1000⟩, ⟨"CALL", 0xF000, 0x2000⟩, ⟨"SE_IMM", 0xF000, 0x3000⟩, ⟨"SNE_IMM", 0xF000, 0x4000⟩,
   ⟨"LD_IMM", 0xF000, 0x6000⟩, ⟨"ADD_IMM", 0xF000, 0x7000⟩, ⟨"LD_I", 0xF000, 0xA000⟩,
   ⟨"JP_V0", 0xF000, 0xB000⟩, ⟨"RND", 0xF000, 0xC000⟩, ⟨"DRW", 0xF000, 0xD000⟩]

/-- Rows of R103 that fix the family nibble and the lowest nibble (families 5, 8, 9). -/
def pairRows : List OpcodeRow :=
  [⟨"SE_REG", 0xF00F, 0x5000⟩, ⟨"LD_REG", 0xF00F, 0x8000⟩, ⟨"OR", 0xF00F, 0x8001⟩, ⟨"AND", 0xF00F, 0x8002⟩,
   ⟨"XOR", 0xF00F, 0x8003⟩, ⟨"ADD_REG", 0xF00F, 0x8004⟩, ⟨"SUB", 0xF00F, 0x8005⟩, ⟨"SHR", 0xF00F, 0x8006⟩,
   ⟨"SUBN", 0xF00F, 0x8007⟩, ⟨"SHL", 0xF00F, 0x800E⟩, ⟨"SNE_REG", 0xF00F, 0x9000⟩]

/-- Rows of R103 that fix the family nibble and the low byte (families E and F). -/
def singleRows : List OpcodeRow :=
  [⟨"SKP", 0xF0FF, 0xE09E⟩, ⟨"SKNP", 0xF0FF, 0xE0A1⟩, ⟨"LD_VX_DT", 0xF0FF, 0xF007⟩, ⟨"LD_VX_K", 0xF0FF, 0xF00A⟩,
   ⟨"LD_DT_VX", 0xF0FF, 0xF015⟩, ⟨"LD_ST_VX", 0xF0FF, 0xF018⟩, ⟨"ADD_I_VX", 0xF0FF, 0xF01E⟩,
   ⟨"LD_F_VX", 0xF0FF, 0xF029⟩, ⟨"LD_B_VX", 0xF0FF, 0xF033⟩, ⟨"LD_MEM_VX", 0xF0FF, 0xF055⟩,
   ⟨"LD_VX_MEM", 0xF0FF, 0xF065⟩]

/-- The 34 rows of the opcode map (30_encoding.md R103), written from its mask and match columns and not from
the decoder. -/
def opcodeRows : List OpcodeRow := fixedRows ++ familyRows ++ pairRows ++ singleRows

/-- The word is an instruction: some row of the opcode map matches it (30_encoding.md R104, R105). -/
def wordWellFormed (w : Word) : Bool := opcodeRows.any (·.admits w)

/-- The ROM fits into 0x200..0xFFF (60_exceptions.md R362). -/
def romWellFormed (rom : List Byte) : Bool := rom.length ≤ Config.maxRom

/-- A font placement keeps the whole table in the reserved region: FONT_BASE + 16 * FONT_STRIDE <= 0x200
(00_scope.md R9). -/
def fontPlacementWellFormed (base stride : Nat) : Bool := base + 16 * stride ≤ Config.progStart

end Sys2Proof
end

