-- ==== Sys2Proof/Decode.lean ====
section
/-! DEFINITION. From words and bytes to instructions (30_encoding.md R101-R106), and back. The decoder is total
and refuses by name; the encoder is written from the patterns of R103. -/

namespace Sys2Proof

/-! ## Fields of a word (30_encoding.md R101) -/

/-- op = w[15:12]. -/
def opOf (w : Word) : BitVec 4 := w.extractLsb' 12 4

/-- x = w[11:8] (C2: a shift of 8, not 16). -/
def xOf (w : Word) : Fin 16 := (w.extractLsb' 8 4).toFin

/-- y = w[7:4]. -/
def yOf (w : Word) : Fin 16 := (w.extractLsb' 4 4).toFin

/-- n = w[3:0]. -/
def nOf (w : Word) : Fin 16 := (w.extractLsb' 0 4).toFin

/-- nn = w[7:0]. -/
def nnOf (w : Word) : Byte := w.extractLsb' 0 8

/-- nnn = w[11:0]. -/
def nnnOf (w : Word) : Addr12 := w.extractLsb' 0 12

/-! ## The decoder -/

/-- Family 8 by its low nibble (30_encoding.md R104). -/
def decodePair (x y : Reg) (n : Nat) : Option Instr :=
  match n with
  | 0x0 => some (.ldReg x y)
  | 0x1 => some (.orReg x y)
  | 0x2 => some (.andReg x y)
  | 0x3 => some (.xorReg x y)
  | 0x4 => some (.addReg x y)
  | 0x5 => some (.sub x y)
  | 0x6 => some (.shr x y)
  | 0x7 => some (.subn x y)
  | 0xE => some (.shl x y)
  | _ => none

/-- Family E by its low byte (30_encoding.md R104). -/
def decodeKey (x : Reg) (nn : Nat) : Option Instr :=
  match nn with
  | 0x9E => some (.skp x)
  | 0xA1 => some (.sknp x)
  | _ => none

/-- Family F by its low byte (30_encoding.md R104). -/
def decodeMisc (x : Reg) (nn : Nat) : Option Instr :=
  match nn with
  | 0x07 => some (.ldVxDt x)
  | 0x0A => some (.ldVxK x)
  | 0x15 => some (.ldDtVx x)
  | 0x18 => some (.ldStVx x)
  | 0x1E => some (.addIVx x)
  | 0x29 => some (.ldFVx x)
  | 0x33 => some (.ldBVx x)
  | 0x55 => some (.ldMemVx x)
  | 0x65 => some (.ldVxMem x)
  | _ => none

/-- The decoder of 30_encoding.md R104; `none` is its `Unrecognized`. -/
def decode (w : Word) : Option Instr :=
  match (opOf w).toNat with
  | 0x0 => if w = 0x00E0 then some .cls else if w = 0x00EE then some .ret else none
  | 0x1 => some (.jp (nnnOf w))
  | 0x2 => some (.call (nnnOf w))
  | 0x3 => some (.seImm (xOf w) (nnOf w))
  | 0x4 => some (.sneImm (xOf w) (nnOf w))
  | 0x5 => if nOf w = 0 then some (.seReg (xOf w) (yOf w)) else none
  | 0x6 => some (.ldImm (xOf w) (nnOf w))
  | 0x7 => some (.addImm (xOf w) (nnOf w))
  | 0x8 => decodePair (xOf w) (yOf w) (nOf w).val
  | 0x9 => if nOf w = 0 then some (.sneReg (xOf w) (yOf w)) else none
  | 0xA => some (.ldI (nnnOf w))
  | 0xB => some (.jpV0 (nnnOf w))
  | 0xC => some (.rnd (xOf w) (nnOf w))
  | 0xD => some (.drw (xOf w) (yOf w) (nOf w))
  | 0xE => decodeKey (xOf w) (nnOf w).toNat
  | 0xF => decodeMisc (xOf w) (nnOf w).toNat
  | _ => none

/-- Why bytes are no instruction. -/
inductive DecodeError where
  /-- Fewer than two bytes are left (30_encoding.md R100: an instruction is exactly two). -/
  | truncated
  /-- The word matches no row of the opcode map (30_encoding.md R105). -/
  | unrecognized (w : Word)
  deriving DecidableEq, Repr

/-- Two bytes as they lie in memory make a word, the first one bits 15:8 (20_memory.md R76). -/
def bigEndian (hi lo : Byte) : Word := hi ++ lo

/-- The decoder on bytes: it consumes exactly two (30_encoding.md R100) and gives the rest back. -/
def decodeBytes (bytes : List Byte) : Except DecodeError (Instr × List Byte) :=
  match bytes with
  | hi :: lo :: rest =>
    match decode (bigEndian hi lo) with
    | some i => .ok (i, rest)
    | none => .error (.unrecognized (bigEndian hi lo))
  | _ => .error .truncated

/-! ## The encoder -/

/-- The word of a pattern with four nibbles, such as 8xy4. -/
def pack4 (op : BitVec 4) (x y n : Fin 16) : Word :=
  op ++ (BitVec.ofFin x : BitVec 4) ++ (BitVec.ofFin y : BitVec 4) ++ (BitVec.ofFin n : BitVec 4)

/-- The word of a pattern with a register and a byte, such as 6xnn. -/
def packByte (op : BitVec 4) (x : Fin 16) (nn : Byte) : Word := op ++ (BitVec.ofFin x : BitVec 4) ++ nn

/-- The word of a pattern with an address, such as 1nnn. -/
def packAddr (op : BitVec 4) (nnn : Addr12) : Word := op ++ nnn

/-- The word of an instruction, from its pattern in 30_encoding.md R103. -/
def encode : Instr → Word
  | .cls => 0x00E0
  | .ret => 0x00EE
  | .jp nnn => packAddr 0x1 nnn
  | .call nnn => packAddr 0x2 nnn
  | .seImm x nn => packByte 0x3 x nn
  | .sneImm x nn => packByte 0x4 x nn
  | .seReg x y => pack4 0x5 x y 0x0
  | .ldImm x nn => packByte 0x6 x nn
  | .addImm x nn => packByte 0x7 x nn
  | .ldReg x y => pack4 0x8 x y 0x0
  | .orReg x y => pack4 0x8 x y 0x1
  | .andReg x y => pack4 0x8 x y 0x2
  | .xorReg x y => pack4 0x8 x y 0x3
  | .addReg x y => pack4 0x8 x y 0x4
  | .sub x y => pack4 0x8 x y 0x5
  | .shr x y => pack4 0x8 x y 0x6
  | .subn x y => pack4 0x8 x y 0x7
  | .shl x y => pack4 0x8 x y 0xE
  | .sneReg x y => pack4 0x9 x y 0x0
  | .ldI nnn => packAddr 0xA nnn
  | .jpV0 nnn => packAddr 0xB nnn
  | .rnd x nn => packByte 0xC x nn
  | .drw x y n => pack4 0xD x y n
  | .skp x => packByte 0xE x 0x9E
  | .sknp x => packByte 0xE x 0xA1
  | .ldVxDt x => packByte 0xF x 0x07
  | .ldVxK x => packByte 0xF x 0x0A
  | .ldDtVx x => packByte 0xF x 0x15
  | .ldStVx x => packByte 0xF x 0x18
  | .addIVx x => packByte 0xF x 0x1E
  | .ldFVx x => packByte 0xF x 0x29
  | .ldBVx x => packByte 0xF x 0x33
  | .ldMemVx x => packByte 0xF x 0x55
  | .ldVxMem x => packByte 0xF x 0x65

/-- The high byte of a word, stored first (20_memory.md R76). -/
def highByte (w : Word) : Byte := w.extractLsb' 8 8

/-- The low byte of a word, stored second (20_memory.md R76). -/
def lowByte (w : Word) : Byte := w.extractLsb' 0 8

/-- The two bytes of a word as memory holds them (20_memory.md R76). -/
def wordBytes (w : Word) : List Byte := [highByte w, lowByte w]

/-- The word whose low `nbits` bits are those of `w` and whose other bits are 0, in the numbering of
spec/opcode_table.json (one 16-bit word, bit 0 least significant). -/
def tableWord (nbits w : Nat) : Word := BitVec.ofNat 16 (w % 2 ^ nbits)

/-- What the decoder reads from an instruction given as the opcode table numbers its bits. -/
def decodeTableWord (nbits w : Nat) : Option Instr :=
  match decodeBytes (wordBytes (tableWord nbits w)) with
  | .ok (i, _) => some i
  | .error _ => none

end Sys2Proof
end

