-- ==== Sys2Proof/Machine/State.lean ====
section
/-! DEFINITION. The state of the core (10_state.md R30), the reasons a transaction can stop (60_exceptions.md
R350, R351), and the state the machine starts in (10_state.md R48). -/

namespace Sys2Proof.Machine

/-- MEM as the list of its (address, byte) cells that differ from what an unlisted address reads as
(`unlistedByte` in Machine/Ops.lean), addresses rising (log 18). -/
abbrev Memory := List Host.Cell

/-- FB[c][r]: 64 columns of 32 pixels (10_state.md R45, 00_scope.md R8). -/
abbrev Frame := Vector (Vector Bool 32) 64

/-- KW, the key-wait state (10_state.md R44). -/
inductive KeyWait where
  /-- not waiting -/
  | notWaiting
  /-- waiting for any key, for register x -/
  | waiting (x : Reg)
  /-- key k was pressed while waiting for register x -/
  | captured (x : Reg) (k : Key)
  deriving DecidableEq, Repr

/-- The state of the core: the tuple of 10_state.md R30, each component under the spec's name (R12), and the
model's own two fields: the parameter SHIFT_SOURCE, which `exec` and `step` have no other argument to take from,
and the counter `draws`. -/
structure State where
  /-- MEM, 4096 bytes (20_memory.md R70) -/
  mem : Memory
  /-- V[0..16] (R32), V[15] being VF (R34) -/
  v : Vector Byte 16
  /-- I (R38) -/
  i : Word
  /-- PC (R39) -/
  pc : Word
  /-- S[0..16] (R40) -/
  stack : Vector Word 16
  /-- SP, the number of slots in use, 0..=16 (R40) -/
  sp : Fin 17
  /-- DT, the delay timer (R42) -/
  dt : Byte
  /-- ST, the sound timer (R42) -/
  st : Byte
  /-- K[0..16], true meaning pressed (R43) -/
  keys : Vector Bool 16
  /-- KW (R44) -/
  kw : KeyWait
  /-- FB (R45) -/
  fb : Frame
  /-- REDRAW (R46) -/
  redraw : Bool
  /-- The parameter SHIFT_SOURCE (00_scope.md R9), "fixed for the life of a core instance" (R31): no operation
  changes it. DESIGN CHOICE: the model carries it here, so that either legal value can be chosen (log 4). -/
  shiftSource : ShiftSource
  /-- DESIGN CHOICE, the model's own and not the spec's: how many free bytes have been drawn (log 5). -/
  draws : Nat
  deriving DecidableEq, Repr

/-- The errors of 60_exceptions.md R350 with the record of R351: the offending instruction word and the PC at
the start of the step. All are safe: the spec itself reports each as an error and leaves the state unchanged
(40_engine.md R135); a run of the model ends there (log 8). -/
inductive Fault where
  /-- 1: raised by `step` when the fetched word is no instruction (30_encoding.md R105). Safe. -/
  | unrecognizedOpcode (opcode pc : Word)
  /-- 2: raised by CALL when SP = 16 (41_flow.md R162). Safe. -/
  | stackOverflow (opcode pc : Word)
  /-- 3: raised by RET when SP = 0 (41_flow.md R160). Safe. -/
  | stackUnderflow (opcode pc : Word)
  /-- 4: raised by the fetch (opcode `none`) when PC > 0xFFE (40_engine.md R132), and by DRW, LD_B_VX,
  LD_MEM_VX and LD_VX_MEM when a byte they touch lies above 0xFFF (20_memory.md R75). Safe. -/
  | memoryOutOfRange (opcode : Option Word) (pc : Word)
  /-- 5: raised by SKP and SKNP when V[x] > 0xF (45_input_timers.md R320, R321). Safe. -/
  | keyOutOfRange (opcode pc : Word)
  /-- 6: raised by LD_F_VX when V[x] > 0xF (43_index_memory.md R252). Safe. -/
  | digitOutOfRange (opcode pc : Word)
  /-- 7: raised by the host's `load`, never by a step, for a ROM of more than 3584 bytes; it records the
  length (60_exceptions.md R351, R362). Safe. -/
  | romTooLarge (length : Nat)
  deriving DecidableEq, Repr

/-- Why the model gives no outcome. -/
inductive Refusal where
  /-- The instruction has no meaning yet; raised by `exec` alone, and by none of its arms, since every
  instruction has its meaning. Safe. -/
  | notModelled (mnemonic : String)
  deriving DecidableEq, Repr

/-- What a step or a meaning answers. -/
abbrev Result := Host.Outcome State Fault Refusal

/-- The state `create()` leaves (70_reset_and_hazards.md R400): the "after create" column of 10_state.md R48,
with nothing listed in memory, so that every byte reads as R48 says. -/
def State.create : State where
  mem := []
  v := Vector.replicate 16 0
  i := 0
  pc := 0x200
  stack := Vector.replicate 16 0
  sp := 0
  dt := 0
  st := 0
  keys := Vector.replicate 16 false
  kw := .notWaiting
  fb := Vector.replicate 64 (Vector.replicate 32 false)
  redraw := false
  shiftSource := Config.shiftSource
  draws := 0

/-- The machine as it starts. DESIGN CHOICE: the state `create()` leaves (log 1); the `reset()` transaction,
which depends on the state it is applied to (R401), is `hostReset` in Machine/HostOps.lean. -/
def State.reset : State := State.create

end Sys2Proof.Machine
end

