-- ==== Sys2Proof/Machine/Ops.lean ====
section
/-! DEFINITION. The shared operations: memory (20_memory.md), the register file and the other registers
(10_state.md), the return-address stack (R41), advancing PC (40_engine.md R136), fetching a word (R132), and
raising an error (60_exceptions.md R350-R355). Every meaning is written over these. -/

namespace Sys2Proof.Machine

/-! ## The font (10_state.md R47) -/

/-- FONT_BASE (00_scope.md R9): open, at most 432 (log 2). -/
def fontBase : Nat := Config.fontBase.val

/-- FONT_STRIDE (00_scope.md R9). -/
def fontStride : Nat := Config.fontStride

/-- FONT_DATA as one table: byte k is row k mod 5 of the glyph of digit k / 5 (10_state.md R47). -/
def fontByte (k : Nat) : Byte := (Config.glyph (Fin.ofNat 16 (k / 5)))[k % 5]'(Nat.mod_lt k (by decide))

/-! ## Memory (20_memory.md) -/

/-- What an address that `mem` does not list reads as: the contents of MEM after `create()` (10_state.md R48),
the font at FONT_BASE and 0x00 elsewhere (log 7). -/
def unlistedByte (a : Nat) : Byte :=
  if Config.progStart ≤ a then 0
  else if fontBase ≤ a ∧ a < fontBase + 16 * fontStride then fontByte (a - fontBase)
  else 0

/-- The listed byte at an address. -/
def Memory.lookup (m : Memory) (a : Nat) : Option Byte :=
  match m with
  | [] => none
  | (b, v) :: rest => if a = b then some v else Memory.lookup rest a

/-- MEM[a]. -/
def Memory.read (m : Memory) (a : Nat) : Byte := (Memory.lookup m a).getD (unlistedByte a)

/-- The list without the cell at an address. -/
def Memory.erase (m : Memory) (a : Nat) : Memory :=
  match m with
  | [] => []
  | (b, v) :: rest => if a = b then Memory.erase rest a else (b, v) :: Memory.erase rest a

/-- The list with a cell put at its place. -/
def Memory.insert (m : Memory) (a : Nat) (v : Byte) : Memory :=
  match m with
  | [] => [(a, v)]
  | (b, u) :: rest =>
    if a < b then (a, v) :: (b, u) :: rest
    else if a = b then (a, v) :: rest
    else (b, u) :: Memory.insert rest a v

/-- MEM[a] <- v, keeping the canonical form: a byte equal to the unlisted one is not listed. -/
def Memory.write (m : Memory) (a : Nat) (v : Byte) : Memory :=
  if v = unlistedByte a then Memory.erase m a else Memory.insert m a v

/-- MEM[a], MEM[a+1], ... <- the bytes in turn. -/
def Memory.writeAll (m : Memory) (a : Nat) (bytes : List Byte) : Memory :=
  match bytes with
  | [] => m
  | b :: rest => Memory.writeAll (Memory.write m a b) (a + 1) rest

/-- The canonical form of a memory: addresses strictly rising and at most 0xFFF, and no cell that an unlisted
address would read as anyway. -/
def Memory.wf (m : Memory) : Bool :=
  match m with
  | [] => true
  | (a, v) :: rest =>
    decide (a ≤ 0xFFF) && decide (v ≠ unlistedByte a) && rest.all (fun cell => decide (a < cell.1)) && Memory.wf rest

/-- The n bytes from a on exist: no address among them is above 0xFFF, the address being an unbounded integer
(20_memory.md R73, R75; 43_index_memory.md R257). No byte always exists. -/
abbrev InRange (a n : Nat) : Prop := n = 0 ∨ a + n - 1 ≤ 0xFFF

/-- MemRead of n bytes, every address checked first (20_memory.md R73, R75); `none` is MemoryOutOfRange. -/
def Memory.load (m : Memory) (a n : Nat) : Option (List Byte) :=
  if InRange a n then some ((List.range n).map fun k => Memory.read m (a + k)) else none

/-- MemWrite of some bytes, every address checked first (20_memory.md R73, R75); `none` is
MemoryOutOfRange. -/
def Memory.store (m : Memory) (a : Nat) (bytes : List Byte) : Option Memory :=
  if InRange a bytes.length then some (Memory.writeAll m a bytes) else none

/-! ## Registers: one reader and one writer each -/

/-- V[x]. -/
def State.getV (s : State) (x : Reg) : Byte := s.v[x]

/-- V[x] <- b. -/
def State.setV (s : State) (x : Reg) (b : Byte) : State := { s with v := s.v.set x b }

/-- VF <- b: VF is V[15] (10_state.md R34). -/
def State.setVF (s : State) (b : Byte) : State := s.setV 0xF b

/-- V[0], V[1], ... <- the bytes in turn; registers past the last byte keep their values
(43_index_memory.md R256). -/
def State.setLow (s : State) (bytes : List Byte) : State :=
  { s with v := Vector.ofFn fun r => bytes.getD r.val s.v[r] }

/-- I <- a. -/
def State.setI (s : State) (a : Word) : State := { s with i := a }

/-- PC <- target. -/
def State.setPc (s : State) (target : Word) : State := { s with pc := target }

/-- DT <- b. -/
def State.setDt (s : State) (b : Byte) : State := { s with dt := b }

/-- ST <- b. -/
def State.setSt (s : State) (b : Byte) : State := { s with st := b }

/-- K[k]. -/
def State.getKey (s : State) (k : Key) : Bool := s.keys[k]

/-- K[k] <- pressed. -/
def State.setKeyLatch (s : State) (k : Key) (pressed : Bool) : State := { s with keys := s.keys.set k pressed }

/-- KW <- w. -/
def State.setKw (s : State) (w : KeyWait) : State := { s with kw := w }

/-- FB[c][r]. -/
def Frame.pixel (f : Frame) (c : Fin 64) (r : Fin 32) : Bool := f[c][r]

/-- FB <- f. -/
def State.setFb (s : State) (f : Frame) : State := { s with fb := f }

/-- REDRAW <- b. -/
def State.setRedraw (s : State) (b : Bool) : State := { s with redraw := b }

/-- MEM <- m. -/
def State.setMem (s : State) (m : Memory) : State := { s with mem := m }

/-! ## The parameter SHIFT_SOURCE -/

/-- The same core made with the other or the same value of SHIFT_SOURCE (00_scope.md R9). No operation of the
machine does this: it is how one states which core is meant (log 4). -/
def State.withShiftSource (s : State) (src : ShiftSource) : State := { s with shiftSource := src }

/-! ## Free bytes -/

/-- The next n draws, each any byte (42_alu.md R213, 70_reset_and_hazards.md R401; logs 5 and 6). -/
def freshBytes (s : State) (n : Nat) : List Byte := (List.range n).map fun k => Config.freeByte (s.draws + k)

/-- The next n draws are used up. -/
def State.skipDraws (s : State) (n : Nat) : State := { s with draws := s.draws + n }

/-! ## The program counter (40_engine.md R136, R137) -/

/-- PC <- PC + 2, modulo 2^16. -/
def State.advance (s : State) : State := s.setPc (s.pc + 2)

/-- PC <- PC + 4 when the condition holds, else PC + 2, modulo 2^16. -/
def State.skipIf (s : State) (cond : Bool) : State := s.setPc (s.pc + if cond then 4 else 2)

/-! ## The return-address stack (10_state.md R41) -/

/-- Push: `none` is StackOverflow. -/
def State.push (s : State) (ret : Word) : Option State :=
  if h : s.sp.val < 16 then
    some { s with stack := s.stack.set s.sp.val ret h, sp := ⟨s.sp.val + 1, by omega⟩ }
  else none

/-- Pop, with the value popped; the slot keeps its stale value. `none` is StackUnderflow. -/
def State.pop (s : State) : Option (Word × State) :=
  if h : 0 < s.sp.val then
    some (s.stack[s.sp.val - 1]'(by omega), { s with sp := ⟨s.sp.val - 1, by omega⟩ })
  else none

/-! ## Errors (60_exceptions.md R350-R355)

There is no trap entry and no trap return: an error saves nothing, changes nothing and goes to the host
(R354, R355), so raising one is the outcome `fault` with the record of R351. -/

/-- Raise an error of an instruction: it records the word of the instruction and the PC at the start of the
step. DEDUCED: the word fetched is the word the instruction encodes to, since decoding loses no bit (log 9). -/
def raise (kind : Word → Word → Fault) (i : Instr) (s : State) : Result := .fault (kind (encode i) s.pc)

/-- MemoryOutOfRange of an instruction. -/
def raiseMemory (i : Instr) (s : State) : Result := raise (fun w pc => .memoryOutOfRange (some w) pc) i s

/-- The code of an error (60_exceptions.md R350). -/
def Fault.code : Fault → Nat
  | .unrecognizedOpcode _ _ => 1
  | .stackOverflow _ _ => 2
  | .stackUnderflow _ _ => 3
  | .memoryOutOfRange _ _ => 4
  | .keyOutOfRange _ _ => 5
  | .digitOutOfRange _ _ => 6
  | .romTooLarge _ => 7

/-! ## Fetch (40_engine.md R132) -/

/-- The word at PC, big-endian (20_memory.md R76); `none` when PC > 0xFFE. -/
def fetch (s : State) : Option Word :=
  if s.pc.toNat ≤ 0xFFE then
    some (bigEndian (Memory.read s.mem s.pc.toNat) (Memory.read s.mem (s.pc.toNat + 1)))
  else none

/-- The error of a fetch outside memory: no opcode, and the PC (40_engine.md R132). -/
def fetchError (s : State) : Result := .fault (.memoryOutOfRange none s.pc)

/-- The error of a word that is no instruction (40_engine.md R133). -/
def decodeError (w : Word) (s : State) : Result := .fault (.unrecognizedOpcode w s.pc)

/-! ## Placing an instruction from outside -/

/-- A state whose next step fetches the word w: the word stands at PC, and, where the state would not fetch
there, PC is 0x200 and no key-wait is pending (log 11). -/
def placeWord (s : State) (w : Word) : State :=
  let pc : Word := if s.pc.toNat ≤ 0xFFE then s.pc else 0x200
  { s with mem := Memory.writeAll s.mem pc.toNat (wordBytes w), pc := pc, kw := .notWaiting }

end Sys2Proof.Machine
end

