-- ==== Sys2Proof/Machine/Flags.lean ====
section
/-! DEFINITION. The values VF takes as a flag (10_state.md R35), each computed from the operands as they were
before any write (42_alu.md R207). -/

namespace Sys2Proof.Machine

/-- A condition as the byte VF holds: 1 or 0. -/
def flagByte (cond : Bool) : Byte := if cond then 1 else 0

/-- The carry out of bit 7 of a + b (42_alu.md R208). -/
def carryFlag (a b : Byte) : Byte := flagByte (decide (a.toNat + b.toNat > 0xFF))

/-- No borrow in a - b: a >= b (42_alu.md R209, R211). -/
def noBorrowFlag (a b : Byte) : Byte := flagByte (decide (a.toNat ≥ b.toNat))

/-- The bit a right shift drops, bit 0 (42_alu.md R210). -/
def lowBitFlag (a : Byte) : Byte := flagByte (a.getLsbD 0)

/-- The bit a left shift drops, bit 7 (42_alu.md R212). -/
def highBitFlag (a : Byte) : Byte := flagByte (a.getLsbD 7)

/-- A sprite collision (44_display.md R291, R292). -/
def collisionFlag (hit : Bool) : Byte := flagByte hit

end Sys2Proof.Machine
end

