-- ==== Sys2Proof/Machine/Operands.lean ====
section
/-! DEFINITION. The operand forms: registers, immediates widened with zeros (30_encoding.md R102), the one
data addressing mode I + k (43_index_memory.md R257), the shifted register (00_scope.md R9), jump targets
and glyph addresses. -/

namespace Sys2Proof.Machine

/-- zext_16(nnn) (30_encoding.md R102). -/
def addrOperand (nnn : Addr12) : Word := nnn.setWidth 16

/-- zext_16 of a byte (43_index_memory.md R251, 41_flow.md R167). -/
def byteOperand (b : Byte) : Word := b.setWidth 16

/-- The base of a data access, I, as an unbounded integer (43_index_memory.md R257). -/
def dataBase (s : State) : Nat := s.i.toNat

/-- The target of Bnnn, V[0] + nnn modulo 2^16 (41_flow.md R167). -/
def offsetTarget (nnn : Addr12) (s : State) : Word := byteOperand (s.getV 0) + addrOperand nnn

/-- The register a shift takes: V[x] or V[y] by SHIFT_SOURCE (42_alu.md R210, R212; 00_scope.md R9). -/
def shiftOperand (x y : Reg) (s : State) : Byte :=
  match s.shiftSource with
  | .vx => s.getV x
  | .vy => s.getV y

/-- V[0..=x] in order (43_index_memory.md R255). -/
def lowRegisters (x : Reg) (s : State) : List Byte := s.v.toList.take (x.val + 1)

/-- A byte that names one of sixteen things, a key or a digit; `none` above 0xF (45_input_timers.md R320,
43_index_memory.md R252). -/
def hexOperand (b : Byte) : Option (Fin 16) := if h : b.toNat < 16 then some ⟨b.toNat, h⟩ else none

/-- FONT_BASE + FONT_STRIDE * d (43_index_memory.md R252). -/
def glyphAddress (d : Fin 16) : Word := BitVec.ofNat 16 (fontBase + fontStride * d.val)

/-- The decimal digits of a byte: hundreds, tens, ones (43_index_memory.md R254). -/
def decimalDigits (b : Byte) : List Byte :=
  [BitVec.ofNat 8 (b.toNat / 100), BitVec.ofNat 8 (b.toNat / 10 % 10), BitVec.ofNat 8 (b.toNat % 10)]

end Sys2Proof.Machine
end

