-- ==== Sys2Proof/Machine/Alu.lean ====
section
/-! DEFINITION. Register loads and the 8-bit ALU (42_alu.md). All arithmetic wraps modulo 2^8 (R206). -/

namespace Sys2Proof.Machine

/-- V[x] <- b; PC <- P + 2. -/
def writeResult (x : Reg) (b : Byte) (s : State) : Result := .next (s.setV x b).advance

/-- V[x] <- b; then VF <- flag, written last; PC <- P + 2 (R207, 10_state.md R36). -/
def writeResultAndFlag (x : Reg) (b flag : Byte) (s : State) : Result := .next ((s.setV x b).setVF flag).advance

/-- LD Vx, nn (R200). -/
def execLdImm (x : Reg) (nn : Byte) (s : State) : Result := writeResult x nn s

/-- ADD Vx, nn (R201): the carry is discarded, VF is not written (D6). -/
def execAddImm (x : Reg) (nn : Byte) (s : State) : Result := writeResult x (s.getV x + nn) s

/-- LD Vx, Vy (R202). -/
def execLdReg (x y : Reg) (s : State) : Result := writeResult x (s.getV y) s

/-- OR Vx, Vy (R203): VF is not reset (D5). -/
def execOr (x y : Reg) (s : State) : Result := writeResult x (s.getV x ||| s.getV y) s

/-- AND Vx, Vy (R204): VF is not reset (D5). -/
def execAnd (x y : Reg) (s : State) : Result := writeResult x (s.getV x &&& s.getV y) s

/-- XOR Vx, Vy (R205): VF is not reset (D5). -/
def execXor (x y : Reg) (s : State) : Result := writeResult x (s.getV x ^^^ s.getV y) s

/-- ADD Vx, Vy (R208). -/
def execAddReg (x y : Reg) (s : State) : Result :=
  writeResultAndFlag x (s.getV x + s.getV y) (carryFlag (s.getV x) (s.getV y)) s

/-- SUB Vx, Vy (R209). -/
def execSub (x y : Reg) (s : State) : Result :=
  writeResultAndFlag x (s.getV x - s.getV y) (noBorrowFlag (s.getV x) (s.getV y)) s

/-- SHR Vx, Vy (R210): the register SHIFT_SOURCE names is shifted. -/
def execShr (x y : Reg) (s : State) : Result :=
  writeResultAndFlag x (shiftOperand x y s >>> 1) (lowBitFlag (shiftOperand x y s)) s

/-- SUBN Vx, Vy (R211, D4). -/
def execSubn (x y : Reg) (s : State) : Result :=
  writeResultAndFlag x (s.getV y - s.getV x) (noBorrowFlag (s.getV y) (s.getV x)) s

/-- SHL Vx, Vy (R212): the register SHIFT_SOURCE names is shifted. -/
def execShl (x y : Reg) (s : State) : Result :=
  writeResultAndFlag x (shiftOperand x y s <<< 1) (highBitFlag (shiftOperand x y s)) s

/-- RND Vx, nn (R213): the random byte is the next draw, any byte (D23, log 5). -/
def execRnd (x : Reg) (nn : Byte) (s : State) : Result :=
  writeResult x (Config.freeByte s.draws &&& nn) (s.skipDraws 1)

end Sys2Proof.Machine
end

