-- ==== Sys2Proof/Machine/Display.lean ====
section
/-! DEFINITION. Framebuffer operations (44_display.md). -/

namespace Sys2Proof.Machine

/-- Every pixel 0. -/
def clearFrame : Frame := Vector.replicate 64 (Vector.replicate 32 false)

/-- FB[c][r] <- FB[c][r] ^ 1. -/
def flipPixel (f : Frame) (c : Fin 64) (r : Fin 32) : Frame := f.set c (f[c].set r (!f.pixel c r))

/-- The column of bit b of a sprite drawn at column cx, counted from the left and wrapping (R291). -/
def spriteColumn (cx b : Nat) : Fin 64 := Fin.ofNat 64 (cx + b)

/-- The screen row of row r of a sprite drawn at row cy, wrapping (R291). -/
def spriteRow (cy r : Nat) : Fin 32 := Fin.ofNat 32 (cy + r)

/-- One bit of one sprite row, bit 7 leftmost (R293): a 1 bit flips its pixel, and hits if the pixel was 1. -/
def drawBit (cx : Nat) (q : Fin 32) (row : Byte) (acc : Frame × Bool) (b : Nat) : Frame × Bool :=
  if row.getLsbD (7 - b) then
    (flipPixel acc.1 (spriteColumn cx b) q, acc.2 || acc.1.pixel (spriteColumn cx b) q)
  else acc

/-- The eight bits of one sprite row, from the left. -/
def drawRow (cx : Nat) (q : Fin 32) (row : Byte) (acc : Frame × Bool) : Frame × Bool :=
  (List.range 8).foldl (drawBit cx q row) acc

/-- The rows of a sprite from its row r on, from the top. -/
def drawRows (cx cy : Nat) (rows : List Byte) (r : Nat) (acc : Frame × Bool) : Frame × Bool :=
  match rows with
  | [] => acc
  | row :: rest => drawRows cx cy rest (r + 1) (drawRow cx (spriteRow cy r) row acc)

/-- A whole sprite at column cx and row cy: the new framebuffer, and whether a pixel went from 1 to 0
(R291, R292). -/
def drawSprite (cx cy : Nat) (rows : List Byte) (f : Frame) : Frame × Bool := drawRows cx cy rows 0 (f, false)

/-- CLS (R290). -/
def execCls (s : State) : Result := .next ((s.setFb clearFrame).setRedraw true).advance

/-- DRW Vx, Vy, n (R291): the coordinates are read before VF is written, and VF is written last. -/
def execDrw (x y : Reg) (n : RowCount) (s : State) : Result :=
  match Memory.load s.mem (dataBase s) n.val with
  | some rows =>
    let drawn := drawSprite (s.getV x).toNat (s.getV y).toNat rows s.fb
    .next (((s.setFb drawn.1).setRedraw true).setVF (collisionFlag drawn.2)).advance
  | none => raiseMemory (.drw x y n) s

end Sys2Proof.Machine
end

