-- ==== Sys2Proof/Machine/Flow.lean ====
section
/-! DEFINITION. Control transfer and conditional skips (41_flow.md). -/

namespace Sys2Proof.Machine

/-- RET (R160). -/
def execRet (s : State) : Result :=
  match s.pop with
  | some (ret, t) => .next (t.setPc ret)
  | none => raise .stackUnderflow .ret s

/-- JP nnn (R161). -/
def execJp (nnn : Addr12) (s : State) : Result := .next (s.setPc (addrOperand nnn))

/-- CALL nnn (R162): the address pushed is that of the instruction after the call. -/
def execCall (nnn : Addr12) (s : State) : Result :=
  match s.push (s.pc + 2) with
  | some t => .next (t.setPc (addrOperand nnn))
  | none => raise .stackOverflow (.call nnn) s

/-- SE Vx, nn (R163). -/
def execSeImm (x : Reg) (nn : Byte) (s : State) : Result := .next (s.skipIf (s.getV x == nn))

/-- SNE Vx, nn (R164). -/
def execSneImm (x : Reg) (nn : Byte) (s : State) : Result := .next (s.skipIf (s.getV x != nn))

/-- SE Vx, Vy (R165). -/
def execSeReg (x y : Reg) (s : State) : Result := .next (s.skipIf (s.getV x == s.getV y))

/-- SNE Vx, Vy (R166). -/
def execSneReg (x y : Reg) (s : State) : Result := .next (s.skipIf (s.getV x != s.getV y))

/-- JP V0, nnn (R167): always V[0]; the sum is not cut to 12 bits (D29). -/
def execJpV0 (nnn : Addr12) (s : State) : Result := .next (s.setPc (offsetTarget nnn s))

end Sys2Proof.Machine
end

