-- ==== Sys2Proof/Machine/IndexMemory.lean ====
section
/-! DEFINITION. The index register, glyph addresses, decimal conversion and block transfers
(43_index_memory.md). I is never changed by an access (R257, D7). -/

namespace Sys2Proof.Machine

/-- Store bytes from address I on and advance, or raise MemoryOutOfRange with nothing written (R254, R255;
20_memory.md R75). -/
def storeAtI (bytes : List Byte) (i : Instr) (s : State) : Result :=
  match Memory.store s.mem (dataBase s) bytes with
  | some m => .next (s.setMem m).advance
  | none => raiseMemory i s

/-- LD I, nnn (R250). -/
def execLdI (nnn : Addr12) (s : State) : Result := .next (s.setI (addrOperand nnn)).advance

/-- ADD I, Vx (R251): modulo 2^16, VF not written (D6). -/
def execAddIVx (x : Reg) (s : State) : Result := .next (s.setI (s.i + byteOperand (s.getV x))).advance

/-- LD F, Vx (R252): DigitOutOfRange above 0xF (D13). -/
def execLdFVx (x : Reg) (s : State) : Result :=
  match hexOperand (s.getV x) with
  | some d => .next (s.setI (glyphAddress d)).advance
  | none => raise .digitOutOfRange (.ldFVx x) s

/-- LD B, Vx (R254). -/
def execLdBVx (x : Reg) (s : State) : Result := storeAtI (decimalDigits (s.getV x)) (.ldBVx x) s

/-- LD [I], Vx (R255). -/
def execLdMemVx (x : Reg) (s : State) : Result := storeAtI (lowRegisters x s) (.ldMemVx x) s

/-- LD Vx, [I] (R256). -/
def execLdVxMem (x : Reg) (s : State) : Result :=
  match Memory.load s.mem (dataBase s) (x.val + 1) with
  | some bytes => .next (s.setLow bytes).advance
  | none => raiseMemory (.ldVxMem x) s

end Sys2Proof.Machine
end

