-- ==== Sys2Proof/Machine/InputTimers.lean ====
section
/-! DEFINITION. Key input and timer access (45_input_timers.md), and the two kinds of step that fetch nothing
because a key-wait is pending (40_engine.md R131). -/

namespace Sys2Proof.Machine

/-- SKP Vx (R320): KeyOutOfRange above 0xF (D12). -/
def execSkp (x : Reg) (s : State) : Result :=
  match hexOperand (s.getV x) with
  | some k => .next (s.skipIf (s.getKey k))
  | none => raise .keyOutOfRange (.skp x) s

/-- SKNP Vx (R321): KeyOutOfRange above 0xF (D12). -/
def execSknp (x : Reg) (s : State) : Result :=
  match hexOperand (s.getV x) with
  | some k => .next (s.skipIf (!s.getKey k))
  | none => raise .keyOutOfRange (.sknp x) s

/-- LD Vx, DT (R322). -/
def execLdVxDt (x : Reg) (s : State) : Result := .next (s.setV x s.dt).advance

/-- LD Vx, K (R323): the wait begins; no register is written and PC stays. -/
def execLdVxK (x : Reg) (s : State) : Result := .next (s.setKw (.waiting x))

/-- LD DT, Vx (R326). -/
def execLdDtVx (x : Reg) (s : State) : Result := .next (s.setDt (s.getV x)).advance

/-- LD ST, Vx (R327): no beep. -/
def execLdStVx (x : Reg) (s : State) : Result := .next (s.setSt (s.getV x)).advance

/-- A step while KW = Waiting(x) changes nothing (40_engine.md R131). -/
def stepWaiting (s : State) : Result := .next s

/-- A step while KW = Captured(x, k) completes the Fx0A and executes nothing else (40_engine.md R131). -/
def stepCaptured (x : Reg) (k : Key) (s : State) : Result :=
  .next (((s.setV x (BitVec.ofNat 8 k.val)).advance).setKw .notWaiting)

end Sys2Proof.Machine
end

