-- ==== Sys2Proof/Machine/Step.lean ====
section
/-! DEFINITION. The step cycle (40_engine.md R130): the key-wait check, then fetch, decode and execute. -/

namespace Sys2Proof.Machine

/-- One `step()` (40_engine.md R130). The checks stand in the order of 60_exceptions.md R353. -/
def step (s : State) : Host.Outcome State Fault Refusal :=
  match s.kw with
  | .waiting _ => stepWaiting s
  | .captured x k => stepCaptured x k s
  | .notWaiting =>
    match fetch s with
    | none => fetchError s
    | some w =>
      match decode w with
      | none => decodeError w s
      | some i => exec i s

/-- The state with an instruction, given as spec/opcode_table.json numbers its bits, standing where the next
step fetches (log 11). -/
def State.withFetchWord (s : State) (nbits w : Nat) : State := placeWord s (tableWord nbits w)

end Sys2Proof.Machine
end

