-- ==== Sys2Proof/Machine/HostOps.lean ====
section
/-! DEFINITION. The host's transactions other than `step` (60_exceptions.md R360-R372,
70_reset_and_hazards.md R400, R401), each a function on State. -/

namespace Sys2Proof.Machine

/-- `create()` (70_reset_and_hazards.md R400): a new core with the given SHIFT_SOURCE (00_scope.md R9, log 4), whatever was
before. The model's own counter of free bytes goes on, so that a new core repeats no draw (log 5). -/
def hostCreate (src : ShiftSource) (draws : Nat) : State := { State.create with shiftSource := src, draws := draws }

/-- `load(rom_bytes)` (60_exceptions.md R362): the bytes at 0x200, nothing else; RomTooLarge with nothing
written. -/
def hostLoad (rom : List Byte) (s : State) : Result :=
  if rom.length > Config.maxRom then .fault (.romTooLarge rom.length)
  else .next (s.setMem (Memory.writeAll s.mem Config.progStart rom))

/-- One timer toward 0 (60_exceptions.md R360). -/
def countDown (t : Byte) : Byte := if t = 0 then 0 else t - 1

/-- `tick_timers()` with its output `beep` (60_exceptions.md R360). -/
def tickTimers (s : State) : State × Bool := ((s.setDt (countDown s.dt)).setSt (countDown s.st), s.st == 1)

/-- `set_key(k, pressed)` (60_exceptions.md R364): the latch, and the capture of a press while a key-wait is
pending. -/
def setKey (k : Key) (pressed : Bool) (s : State) : State :=
  match s.kw with
  | .waiting x => if pressed then (s.setKeyLatch k pressed).setKw (.captured x k) else s.setKeyLatch k pressed
  | .captured _ _ => s.setKeyLatch k pressed
  | .notWaiting => s.setKeyLatch k pressed

/-- `framebuffer()` (60_exceptions.md R366). -/
def framebuffer (s : State) : Frame := s.fb

/-- `redraw_pending()` (60_exceptions.md R367). -/
def redrawPending (s : State) : Bool := s.redraw

/-- `clear_redraw_pending()` (60_exceptions.md R368). -/
def clearRedrawPending (s : State) : State := s.setRedraw false

/-- `reset()` (70_reset_and_hazards.md R401): every register as after `create()`, the framebuffer clear,
REDRAW set, MEM[0x000..0x200] kept and every byte from 0x200 on a draw of its own (log 6). -/
def hostReset (s : State) : State :=
  { State.create with
    mem := Memory.writeAll s.mem Config.progStart (freshBytes s Config.maxRom)
    redraw := true
    shiftSource := s.shiftSource
    draws := s.draws + Config.maxRom }

/-- `set_metadata(options)` (60_exceptions.md R372): it accepts every mapping and does nothing. -/
def setMetadata (_options : List (String × String)) (s : State) : State := s

end Sys2Proof.Machine
end

