-- ==== Sys2Proof/Machine/Interface.lean ====
section
/-! DEFINITION. The host's operations as one table (60_exceptions.md R370): every transaction with its inputs,
its outputs and what it does to the state. A run of the machine under its host is a list of these (log 12). -/

namespace Sys2Proof.Machine

/-- The ten operations with their inputs (R370). A key index is 4 bits (R364, D26). -/
inductive HostOp where
  | create
  | load (rom : List Byte)
  | step
  | tickTimers
  | setKey (k : Key) (pressed : Bool)
  | framebuffer
  | redrawPending
  | clearRedrawPending
  | reset
  | setMetadata (options : List (String × String))
  deriving DecidableEq, Repr

/-- What an operation gives back (R370). -/
inductive HostOutput where
  /-- no output -/
  | nothing
  /-- `Ok` of a step or a load -/
  | ok
  /-- `Err` of a step or a load, with its record (R351) -/
  | err (fault : Fault)
  /-- the model has no meaning; no step answers it -/
  | refused (why : Refusal)
  /-- the beep of a tick (R360) -/
  | beep (on : Bool)
  /-- the pixels (R366) -/
  | pixels (frame : Frame)
  /-- REDRAW (R367) -/
  | flag (value : Bool)
  deriving DecidableEq, Repr

/-- A step or a load as a transaction: an error leaves the state as it was (40_engine.md R135, R352). -/
def settle (s : State) (r : Result) : State × HostOutput :=
  match r with
  | .next t => (t, .ok)
  | .fault f => (s, .err f)
  | .refused why => (s, .refused why)

/-- One transaction (R370). -/
def transact (op : HostOp) (s : State) : State × HostOutput :=
  match op with
  | .create => (hostCreate s.shiftSource s.draws, .nothing)
  | .load rom => settle s (hostLoad rom s)
  | .step => settle s (Machine.step s)
  | .tickTimers => ((Machine.tickTimers s).1, .beep (Machine.tickTimers s).2)
  | .setKey k pressed => (Machine.setKey k pressed s, .nothing)
  | .framebuffer => (s, .pixels (Machine.framebuffer s))
  | .redrawPending => (s, .flag (Machine.redrawPending s))
  | .clearRedrawPending => (Machine.clearRedrawPending s, .nothing)
  | .reset => (hostReset s, .nothing)
  | .setMetadata options => (Machine.setMetadata options s, .nothing)

/-- The state after a sequence of transactions (R370: "the state evolves by their sequence alone"). -/
def transactAll (ops : List HostOp) (s : State) : State :=
  match ops with
  | [] => s
  | op :: rest => transactAll rest (transact op s).1

end Sys2Proof.Machine
end

