-- ==== Sys2Proof/Safety.lean ====
section
/-! DEFINITION. The terms claims are stated in: which parts of the state an operation may write, where the
encoding of an instruction stands, which error each instruction raises and when, where PC goes, what a run
that has ended looks like, and the invariants of the machine. Written from the tables of the spec, not from the
meanings. -/

namespace Sys2Proof.Machine

/-! ## Frames -/

/-- What an operation may write, apart from PC; everything not named is left alone. -/
structure Writes where
  /-- the registers V[r] -/
  regs : Reg → Prop := fun _ => False
  /-- the addresses stored to -/
  mem : Nat → Prop := fun _ => False
  /-- the key latches -/
  keys : Key → Prop := fun _ => False
  /-- I -/
  index : Bool := false
  /-- SP and the stack slots -/
  stack : Bool := false
  /-- DT -/
  delay : Bool := false
  /-- ST -/
  sound : Bool := false
  /-- KW -/
  keyWait : Bool := false
  /-- FB -/
  frame : Bool := false
  /-- REDRAW -/
  redraw : Bool := false
  /-- the model's counter of free bytes -/
  draws : Bool := false

/-- From s to t nothing but what `w` names, and PC, has changed: every other register, every other byte of
memory as read, every other latch, and every other component; the parameter SHIFT_SOURCE never (10_state.md
R31). -/
def OnlyWrites (w : Writes) (s t : State) : Prop :=
  (∀ r, ¬ w.regs r → t.getV r = s.getV r) ∧
  (∀ a, ¬ w.mem a → Memory.read t.mem a = Memory.read s.mem a) ∧
  (∀ k, ¬ w.keys k → t.getKey k = s.getKey k) ∧
  (w.index = false → t.i = s.i) ∧
  (w.stack = false → t.sp = s.sp ∧ t.stack = s.stack) ∧
  (w.delay = false → t.dt = s.dt) ∧
  (w.sound = false → t.st = s.st) ∧
  (w.keyWait = false → t.kw = s.kw) ∧
  (w.frame = false → ∀ c r, t.fb.pixel c r = s.fb.pixel c r) ∧
  (w.redraw = false → t.redraw = s.redraw) ∧
  (w.draws = false → t.draws = s.draws) ∧
  t.shiftSource = s.shiftSource

/-- What each host operation other than create, step and reset may write: the "state written" column of
60_exceptions.md R370. -/
def writtenBy : HostOp → Writes
  | .load rom => { mem := fun a => 0x200 ≤ a ∧ a < 0x200 + rom.length }
  | .tickTimers => { delay := true, sound := true }
  | .setKey k _ => { keys := fun j => j = k, keyWait := true }
  | .clearRedrawPending => { redraw := true }
  | _ => {}

/-! ## Encoding -/

/-- Every word that the mask and match of a row of 30_encoding.md R103 admit decodes to the row's instruction,
with the operands the word's fields give. -/
def EncodedBy (mask bits : Word) (operands : Word → Instr) : Prop :=
  ∀ w : Word, w &&& mask = bits → decode w = some (operands w)

/-! ## Errors (60_exceptions.md R350, R351) -/

/-- The error an instruction raises in a state, if any: the table of R350, with the opcode of the record. -/
def errorOf (i : Instr) (s : State) : Option Fault :=
  match i with
  | .call _ => if s.sp.val = 16 then some (.stackOverflow (encode i) s.pc) else none
  | .ret => if s.sp.val = 0 then some (.stackUnderflow (encode i) s.pc) else none
  | .drw _ _ n =>
    if n.val > 0 ∧ s.i.toNat + n.val - 1 > 0xFFF then some (.memoryOutOfRange (some (encode i)) s.pc) else none
  | .ldBVx _ => if s.i.toNat + 2 > 0xFFF then some (.memoryOutOfRange (some (encode i)) s.pc) else none
  | .ldMemVx x | .ldVxMem x =>
    if s.i.toNat + x.val > 0xFFF then some (.memoryOutOfRange (some (encode i)) s.pc) else none
  | .skp x | .sknp x => if (s.getV x).toNat > 0xF then some (.keyOutOfRange (encode i) s.pc) else none
  | .ldFVx x => if (s.getV x).toNat > 0xF then some (.digitOutOfRange (encode i) s.pc) else none
  | _ => none

/-- The opcode and the PC a step error records (R351); a load error has neither. -/
def Fault.record : Fault → Option (Option Word × Word)
  | .unrecognizedOpcode w p | .stackOverflow w p | .stackUnderflow w p | .keyOutOfRange w p
  | .digitOutOfRange w p => some (some w, p)
  | .memoryOutOfRange w p => some (w, p)
  | .romTooLarge _ => none

/-! ## The program counter (40_engine.md R136) -/

/-- P + 4 if the condition holds, else P + 2. -/
def skipTarget (cond : Prop) [Decidable cond] (p : Word) : Word := if cond then p + 4 else p + 2

/-- The PC after an instruction that succeeds, from the table of R136. -/
def pcAfter (i : Instr) (s : State) : Word :=
  match i with
  | .jp nnn | .call nnn => nnn.setWidth 16
  | .ret => s.stack.toList.getD (s.sp.val - 1) 0
  | .jpV0 nnn => (s.getV 0).setWidth 16 + nnn.setWidth 16
  | .seImm x nn => skipTarget (s.getV x = nn) s.pc
  | .sneImm x nn => skipTarget (s.getV x ≠ nn) s.pc
  | .seReg x y => skipTarget (s.getV x = s.getV y) s.pc
  | .sneReg x y => skipTarget (s.getV x ≠ s.getV y) s.pc
  | .skp x => skipTarget (∃ k : Key, k.val = (s.getV x).toNat ∧ s.getKey k = true) s.pc
  | .sknp x => skipTarget (∃ k : Key, k.val = (s.getV x).toNat ∧ s.getKey k = false) s.pc
  | .ldVxK _ => s.pc
  | _ => s.pc + 2

/-! ## Registers read (10_state.md R33) -/

/-- The registers an instruction reads: R33, the shifts by the value of SHIFT_SOURCE. -/
def readsReg (src : ShiftSource) (i : Instr) (r : Reg) : Prop :=
  match i with
  | .seImm x _ | .sneImm x _ | .addImm x _ | .skp x | .sknp x | .ldDtVx x | .ldStVx x
  | .addIVx x | .ldFVx x | .ldBVx x => r = x
  | .seReg x y | .sneReg x y | .orReg x y | .andReg x y | .xorReg x y | .addReg x y | .sub x y | .subn x y
  | .drw x y _ => r = x ∨ r = y
  | .ldReg _ y => r = y
  | .shr x y | .shl x y =>
    match src with
    | .vx => r = x
    | .vy => r = y
  | .jpV0 _ => r = 0
  | .ldMemVx x => r ≤ x
  | _ => False

/-- The registers an instruction writes when it succeeds: R33's destinations and R35's flag writers. -/
def writesReg (i : Instr) (r : Reg) : Prop :=
  match i with
  | .ldImm x _ | .addImm x _ | .ldReg x _ | .orReg x _ | .andReg x _ | .xorReg x _ | .rnd x _ | .ldVxDt x => r = x
  | .addReg x _ | .sub x _ | .shr x _ | .subn x _ | .shl x _ => r = x ∨ r = 0xF
  | .drw _ _ _ => r = 0xF
  | .ldVxMem x => r ≤ x
  | _ => False

/-! ## Sprites (44_display.md R291) -/

/-- A 1 bit of the sprite of n rows at address I lands on column c and row q when it is drawn at (cx, cy):
some row r and some bit b from the left, wrapping at 64 columns and 32 rows. -/
def SpriteCovers (s : State) (cx cy n c q : Nat) : Prop :=
  ∃ r < n, ∃ b < 8, (Memory.read s.mem (s.i.toNat + r)).getLsbD (7 - b) = true ∧
    (cx + b) % 64 = c ∧ (cy + r) % 32 = q

/-! ## The end of a run (70_reset_and_hazards.md R408) -/

/-- Stopped: the word at PC is a jump to itself and no key-wait is pending. -/
def Stopped (s : State) : Prop :=
  s.kw = .notWaiting ∧ s.pc.toNat ≤ 0xFFE ∧
  bigEndian (Memory.read s.mem s.pc.toNat) (Memory.read s.mem (s.pc.toNat + 1)) = 0x1000 ||| s.pc

/-- Waiting: a key-wait is pending. -/
def Waiting (s : State) : Prop := ∃ x, s.kw = .waiting x

/-- Faulted: the step returns an error. -/
def Faulted (s : State) : Prop := ∃ f, step s = .fault f

/-- The state after n steps (40_engine.md R138). -/
def stepTimes (n : Nat) (s : State) : State := transactAll (List.replicate n .step) s

/-! ## Ticks (60_exceptions.md R360) -/

/-- The state after n ticks, and how many of them beeped. -/
def tickTimes (n : Nat) (s : State) : State × Nat :=
  match n with
  | 0 => (s, 0)
  | k + 1 =>
    ((tickTimes k (tickTimers s).1).1, (tickTimes k (tickTimers s).1).2 + if (tickTimers s).2 then 1 else 0)

/-- The operations that do not end a key-wait: all but a press, create and reset (45_input_timers.md R324). -/
def LeavesKeyWait : HostOp → Prop
  | .setKey _ pressed => pressed = false
  | .create | .reset => False
  | _ => True

/-! ## Invariants -/

/-- What every reachable state satisfies: memory in canonical form; PC at most 0x10FE, the largest target of
Bnnn (40_engine.md R137); every stacked return address at most 0x1000 (41_flow.md R160); and PC on a fetchable
address while a key-wait is pending (10_state.md R39). -/
def Inv (s : State) : Prop :=
  Memory.wf s.mem = true ∧
  s.pc.toNat ≤ 0x10FE ∧
  (∀ k : Fin 16, k.val < s.sp.val → s.stack[k].toNat ≤ 0x1000) ∧
  (s.kw ≠ .notWaiting → s.pc.toNat ≤ 0xFFE)

/-- During a key-wait for register x, the word at PC is the Fx0A of register x (10_state.md R39): true as long
as the host loads no program over it. -/
def KeyWaitStandsOnItsInstruction (s : State) : Prop :=
  ∀ x, (s.kw = .waiting x ∨ ∃ k, s.kw = .captured x k) → fetch s = some (encode (.ldVxK x))

/-- Two states a program cannot tell apart: they differ at most in ST, in REDRAW and in stack slots that are
not in use (10_state.md R41, R42, R50). -/
def SameToPrograms (s t : State) : Prop :=
  s.mem = t.mem ∧ s.v = t.v ∧ s.i = t.i ∧ s.pc = t.pc ∧ s.sp = t.sp ∧
  (∀ k : Fin 16, k.val < s.sp.val → s.stack[k] = t.stack[k]) ∧
  s.dt = t.dt ∧ s.keys = t.keys ∧ s.kw = t.kw ∧ s.fb = t.fb ∧ s.shiftSource = t.shiftSource ∧ s.draws = t.draws

end Sys2Proof.Machine
end

