-- ==== Sys2Proof/Certificates/Slice0/Obligations.lean ====
section
/-! DEFINITION. The statements for the provers, from the numbered rules of the spec. A docstring names the rules
a statement formalises; where it rests on a decision of the spec's own (92_eei_decisions.md D<n>) or on a choice
of the model (log <n> of notes/assumptions), the docstring says so. -/

open Sys2Proof Sys2Proof.Machine

/-! ## Encoding (30_encoding.md) -/

/-- Words written out from the patterns of R103, one or more for every family, as 95_test_vectors.md decodes them:
fields land where R101 says. The nibbles of 8xy_ rest on D2 (log 17). -/
def Obligations.SpecWordsDecode : Prop :=
  decode 0x00E0 = some .cls ∧ decode 0x00EE = some .ret ∧
  decode 0x1228 = some (.jp 0x228) ∧ decode 0x2300 = some (.call 0x300) ∧
  decode 0x3310 = some (.seImm 3 0x10) ∧ decode 0x4310 = some (.sneImm 3 0x10) ∧
  decode 0x5120 = some (.seReg 1 2) ∧ decode 0x6A42 = some (.ldImm 0xA 0x42) ∧
  decode 0x7203 = some (.addImm 2 0x03) ∧ decode 0x8AB4 = some (.addReg 0xA 0xB) ∧
  decode 0x8ABE = some (.shl 0xA 0xB) ∧ decode 0x9AB0 = some (.sneReg 0xA 0xB) ∧
  decode 0xA20A = some (.ldI 0x20A) ∧ decode 0xBFFF = some (.jpV0 0xFFF) ∧
  decode 0xC30F = some (.rnd 3 0x0F) ∧ decode 0xD01F = some (.drw 0 1 0xF) ∧
  decode 0xE39E = some (.skp 3) ∧ decode 0xE3A1 = some (.sknp 3) ∧
  decode 0xF365 = some (.ldVxMem 3) ∧ decode 0xF30A = some (.ldVxK 3) ∧
  decode 0x0000 = none ∧ decode 0x5121 = none ∧ decode 0x9AB7 = none ∧ decode 0x8AB8 = none ∧
  decode 0xE39F = none ∧ decode 0xF356 = none

/-- Decoding the bytes of any instruction gives it back with every operand, consuming exactly two bytes, high
byte first (R100, R103; 20_memory.md R76). Every term of Instr is well-formed (WellFormed.lean). -/
def Obligations.DecodeOfEncodeIsTheInstruction : Prop :=
  ∀ (i : Instr) (rest : List Byte), decodeBytes (wordBytes (encode i) ++ rest) = .ok (i, rest)

/-- Each word has one meaning and no bit of it is lost: a word that decodes is the word of what it decodes to. -/
def Obligations.EncodeOfDecodeIsTheWord : Prop :=
  ∀ (w : Word) (i : Instr), decode w = some i → encode i = w

/-- R104 against the mask and match columns of R103: a word decodes to the instruction named by a row that
matches it, a word no row matches decodes to nothing, and no two rows match the same word. -/
def Obligations.DecodingFollowsTheOpcodeMap : Prop :=
  (∀ (w : Word) (i : Instr), decode w = some i →
    ∃ row ∈ opcodeRows, row.mnemonic = i.mnemonic ∧ row.admits w = true) ∧
  (∀ w : Word, decode w = none ↔ wordWellFormed w = false) ∧
  (∀ (w : Word), ∀ p ∈ opcodeRows, ∀ q ∈ opcodeRows, p.admits w = true → q.admits w = true → p = q)

/-! ## The step cycle (40_engine.md) -/

/-- A step with no key-wait pending and PC at most 0xFFE runs exactly the instruction that the two bytes at PC,
PC + 1 decode to, the first giving bits 15:8, at that state: nothing is added around it (R130, R132, R134;
20_memory.md R76). -/
def Obligations.StepRunsTheDecodedInstruction : Prop :=
  ∀ (s : State) (i : Instr), s.kw = .notWaiting → s.pc.toNat ≤ 0xFFE →
    decode (Memory.read s.mem s.pc.toNat ++ Memory.read s.mem (s.pc.toNat + 1) : Word) = some i →
    step s = exec i s

/-- Decode in a step (R133): a fetched word that a row of the opcode map matches is decoded and its instruction is
executed; "an unrecognized word raises UnrecognizedOpcode with the word and PC". That the whole state then stays as
it was is R135 by the spec's decision D9 (log 8). -/
def Obligations.UnrecognizedWordRaises : Prop :=
  (∀ (s : State) (w : Word), s.kw = .notWaiting → fetch s = some w → wordWellFormed w = true →
    ∃ i, decode w = some i ∧ encode i = w ∧ step s = exec i s) ∧
  ∀ (s : State) (w : Word), s.kw = .notWaiting → fetch s = some w → wordWellFormed w = false →
    step s = .fault (.unrecognizedOpcode w s.pc) ∧
    transact .step s = (s, .err (.unrecognizedOpcode w s.pc))

/-- The step while a key-wait is pending (R131, its completion in a step of its own being D19): Waiting changes
nothing; Captured(x, k) writes k to V[x], advances PC by 2 and ends the wait, whatever stands at PC. -/
def Obligations.StepDuringKeyWait : Prop :=
  (∀ (s : State) (x : Reg), s.kw = .waiting x → step s = .next s) ∧
  ∀ (s : State) (x : Reg) (k : Key), s.kw = .captured x k →
    ∃ t, step s = .next t ∧ (t.getV x).toNat = k.val ∧ t.pc = s.pc + 2 ∧ t.kw = .notWaiting ∧
      OnlyWrites { regs := fun r => r = x, keyWait := true } s t

/-- The PC after every step that returns Ok or an error, from the table of R136: per instruction, during a
key-wait, and after an error. -/
def Obligations.ProgramCounterAfterStep : Prop :=
  (∀ (i : Instr) (s t : State), exec i s = .next t → t.pc = pcAfter i s) ∧
  (∀ (s t : State) (x : Reg), s.kw = .waiting x → step s = .next t → t.pc = s.pc) ∧
  (∀ (s t : State) (x : Reg) (k : Key), s.kw = .captured x k → step s = .next t → t.pc = s.pc + 2) ∧
  (∀ (s : State) (f : Fault), step s = .fault f → (transact .step s).1.pc = s.pc)

/-- Every instruction either completes or raises the one error R350 gives it, exactly when R350 says, and none is
ever refused. Rests on the spec's decisions D10, D12, D13, D24 for what is an error (log 14). -/
def Obligations.InstructionsFailExactlyWhenTheTableSays : Prop :=
  ∀ (i : Instr) (s : State),
    (errorOf i s = none → ∃ t, exec i s = .next t) ∧
    (∀ f, errorOf i s = some f → exec i s = .fault f)

/-- Which error a step reports and when (60_exceptions.md R350, R353): none during a key-wait; the fetch's first
(no opcode), then the decoder's, then the instruction's own. The fetch bound is D10, the order D30 (log 14). -/
def Obligations.StepErrorsInPriorityOrder : Prop :=
  ∀ (s : State) (f : Fault), step s = .fault f ↔
    s.kw = .notWaiting ∧
    ((0xFFE < s.pc.toNat ∧ f = .memoryOutOfRange none s.pc) ∨
      ∃ w, fetch s = some w ∧
        ((wordWellFormed w = false ∧ f = .unrecognizedOpcode w s.pc) ∨
          ∃ i, decode w = some i ∧ errorOf i s = some f))

/-- What an error records (60_exceptions.md R351): a step error the word fetched (none if the fetch itself
failed) and the PC at the start of the step; a load error the rejected length. -/
def Obligations.ErrorsRecordWordAndPc : Prop :=
  (∀ (s : State) (f : Fault), step s = .fault f → f.record = some (fetch s, s.pc)) ∧
  ∀ (rom : List Byte) (s : State) (f : Fault), hostLoad rom s = .fault f → f = .romTooLarge rom.length

/-- The end states of 70_reset_and_hazards.md R408 (the spec's decision D31, log 19) stay: a jump to itself and a pending
key-wait step to the same state, and after an error every further step leaves the state and gives the same error
(40_engine.md R135, R139, decision D9). -/
def Obligations.EndStatesPersist : Prop :=
  (∀ s : State, Stopped s → step s = .next s) ∧
  (∀ s : State, Waiting s → step s = .next s) ∧
  ∀ (s : State) (f : Fault), step s = .fault f →
    ∀ n, stepTimes n s = s ∧ transact .step (stepTimes n s) = (s, .err f)

/-- R134 on whole steps: no step changes a key latch or the parameter SHIFT_SOURCE (10_state.md R31, log 4), DT changes only by Fx15 and ST only by Fx18, so no step
counts a timer down (the two rates are decoupled, C1, decision D36). -/
def Obligations.StepsLeaveTimersAndLatches : Prop :=
  ∀ (s t : State), step s = .next t →
    (∀ k, t.getKey k = s.getKey k) ∧ t.shiftSource = s.shiftSource ∧
    (t.dt ≠ s.dt → ∃ w x, fetch s = some w ∧ decode w = some (.ldDtVx x)) ∧
    (t.st ≠ s.st → ∃ w x, fetch s = some w ∧ decode w = some (.ldStVx x))

/-! ## Control transfer (41_flow.md) -/

/-- RET (R160): PC takes the top slot, SP goes down, the slots keep their values; with an empty stack it raises
StackUnderflow and the state is unchanged. -/
def Obligations.RetPopsTheReturnAddress : Prop :=
  EncodedBy 0xFFFF 0x00EE (fun _ => .ret) ∧
  (∀ (s : State) (h : 0 < s.sp.val),
    ∃ t, exec .ret s = .next t ∧ t.pc = s.stack[s.sp.val - 1]'(by omega) ∧ t.sp.val = s.sp.val - 1 ∧
      t.stack = s.stack ∧ OnlyWrites { stack := true } s t) ∧
  ∀ s : State, s.sp.val = 0 → exec .ret s = .fault (.stackUnderflow 0x00EE s.pc)

/-- JP nnn (R161): PC takes nnn and nothing else changes; a jump to itself changes nothing at all; a jump to
0xFFF makes the next fetch raise MemoryOutOfRange. -/
def Obligations.JpSetsPc : Prop :=
  EncodedBy 0xF000 0x1000 (fun w => .jp (nnnOf w)) ∧
  (∀ (nnn : Addr12) (s : State),
    ∃ t, exec (.jp nnn) s = .next t ∧ t.pc.toNat = nnn.toNat ∧ OnlyWrites {} s t) ∧
  (∀ (nnn : Addr12) (s : State), s.pc.toNat = nnn.toNat → exec (.jp nnn) s = .next s) ∧
  ∀ s t : State, s.kw = .notWaiting → exec (.jp 0xFFF) s = .next t →
    step t = .fault (.memoryOutOfRange none 0xFFF)

/-- CALL nnn (R162): the address after the call goes into the first free slot, SP goes up, PC takes nnn; with
sixteen slots in use it raises StackOverflow. -/
def Obligations.CallPushesTheReturnAddress : Prop :=
  EncodedBy 0xF000 0x2000 (fun w => .call (nnnOf w)) ∧
  (∀ (nnn : Addr12) (s : State) (h : s.sp.val < 16),
    ∃ t, exec (.call nnn) s = .next t ∧ t.stack[s.sp.val] = s.pc + 2 ∧
      (∀ k : Fin 16, k.val ≠ s.sp.val → t.stack[k] = s.stack[k]) ∧ t.sp.val = s.sp.val + 1 ∧
      t.pc.toNat = nnn.toNat ∧ OnlyWrites { stack := true } s t) ∧
  ∀ (nnn : Addr12) (s : State), s.sp.val = 16 →
    exec (.call nnn) s = .fault (.stackOverflow (encode (.call nnn)) s.pc)

/-- The subroutine round trip as two steps (R169): a call to a place that holds 00EE, from any depth at which the
call succeeds, comes back to the instruction after the call, with SP and every slot below it as they were. -/
def Obligations.CallThenReturnComesBack : Prop :=
  ∀ (s : State) (nnn : Addr12), s.kw = .notWaiting → s.sp.val ≤ 15 → nnn.toNat ≤ 0xFFE →
    fetch s = some (encode (.call nnn)) →
    Memory.read s.mem nnn.toNat = 0x00 → Memory.read s.mem (nnn.toNat + 1) = 0xEE →
    ∃ t u, step s = .next t ∧ step t = .next u ∧ u.pc = s.pc + 2 ∧ u.sp = s.sp ∧
      (∀ k : Fin 16, k.val < s.sp.val → u.stack[k] = s.stack[k]) ∧ OnlyWrites { stack := true } s u

/-- The four skips on registers (R163 to R166): PC + 4 when the condition holds, else PC + 2, and nothing else
changes; 5xy_ and 9xy_ with another low nibble are no instruction; and a PC above 0xFFE after a skip makes the next
fetch raise MemoryOutOfRange. -/
def Obligations.RegisterSkips : Prop :=
  EncodedBy 0xF000 0x3000 (fun w => .seImm (xOf w) (nnOf w)) ∧
  EncodedBy 0xF000 0x4000 (fun w => .sneImm (xOf w) (nnOf w)) ∧
  EncodedBy 0xF00F 0x5000 (fun w => .seReg (xOf w) (yOf w)) ∧
  EncodedBy 0xF00F 0x9000 (fun w => .sneReg (xOf w) (yOf w)) ∧
  (∀ w : Word, opOf w = 0x5 ∨ opOf w = 0x9 → nOf w ≠ 0 → decode w = none) ∧
  (∀ (x : Reg) (nn : Byte) (s : State), ∃ t, exec (.seImm x nn) s = .next t ∧
    (s.getV x = nn → t.pc = s.pc + 4) ∧ (s.getV x ≠ nn → t.pc = s.pc + 2) ∧ OnlyWrites {} s t) ∧
  (∀ (x : Reg) (nn : Byte) (s : State), ∃ t, exec (.sneImm x nn) s = .next t ∧
    (s.getV x ≠ nn → t.pc = s.pc + 4) ∧ (s.getV x = nn → t.pc = s.pc + 2) ∧ OnlyWrites {} s t) ∧
  (∀ (x y : Reg) (s : State), ∃ t, exec (.seReg x y) s = .next t ∧
    (s.getV x = s.getV y → t.pc = s.pc + 4) ∧ (s.getV x ≠ s.getV y → t.pc = s.pc + 2) ∧ OnlyWrites {} s t) ∧
  (∀ (x y : Reg) (s : State), ∃ t, exec (.sneReg x y) s = .next t ∧
    (s.getV x ≠ s.getV y → t.pc = s.pc + 4) ∧ (s.getV x = s.getV y → t.pc = s.pc + 2) ∧ OnlyWrites {} s t) ∧
  ∀ t : State, t.kw = .notWaiting → 0xFFE < t.pc.toNat → step t = .fault (.memoryOutOfRange none t.pc)

/-- JP V0, nnn (R167): PC takes the exact sum V[0] + nnn, not cut to 12 bits (decision D29, log 14). -/
def Obligations.JpV0AddsV0 : Prop :=
  EncodedBy 0xF000 0xB000 (fun w => .jpV0 (nnnOf w)) ∧
  ∀ (nnn : Addr12) (s : State), ∃ t, exec (.jpV0 nnn) s = .next t ∧
    t.pc.toNat = (s.getV 0).toNat + nnn.toNat ∧ OnlyWrites {} s t

/-! ## Register loads and the ALU (42_alu.md) -/

/-- LD Vx, nn (R200): V[x] is nn exactly and PC advances by 2; with x = F, VF is nn. -/
def Obligations.LdImmSetsTheRegister : Prop :=
  EncodedBy 0xF000 0x6000 (fun w => .ldImm (xOf w) (nnOf w)) ∧
  ∀ (x : Reg) (nn : Byte) (s : State), ∃ t, exec (.ldImm x nn) s = .next t ∧
    t.getV x = nn ∧ t.pc = s.pc + 2 ∧ OnlyWrites { regs := fun r => r = x } s t

/-- ADD Vx, nn (R201): the sum modulo 2^8; VF is not written as a flag, which is the spec's decision D6
(log 15). -/
def Obligations.AddImmWrapsAndLeavesVf : Prop :=
  EncodedBy 0xF000 0x7000 (fun w => .addImm (xOf w) (nnOf w)) ∧
  ∀ (x : Reg) (nn : Byte) (s : State), ∃ t, exec (.addImm x nn) s = .next t ∧
    (t.getV x).toNat = ((s.getV x).toNat + nn.toNat) % 256 ∧ t.pc = s.pc + 2 ∧
    OnlyWrites { regs := fun r => r = x } s t

/-- LD, OR, AND, XOR Vx, Vy (R202 to R205), bit by bit; VF is not reset, which is the spec's decision D5, and
the low nibbles are its decision D2 (logs 15 and 17). -/
def Obligations.AssignAndLogicBitByBit : Prop :=
  EncodedBy 0xF00F 0x8000 (fun w => .ldReg (xOf w) (yOf w)) ∧
  EncodedBy 0xF00F 0x8001 (fun w => .orReg (xOf w) (yOf w)) ∧
  EncodedBy 0xF00F 0x8002 (fun w => .andReg (xOf w) (yOf w)) ∧
  EncodedBy 0xF00F 0x8003 (fun w => .xorReg (xOf w) (yOf w)) ∧
  ∀ (x y : Reg) (s : State),
    (∃ t, exec (.ldReg x y) s = .next t ∧ t.getV x = s.getV y ∧ t.pc = s.pc + 2 ∧
      OnlyWrites { regs := fun r => r = x } s t) ∧
    (∃ t, exec (.orReg x y) s = .next t ∧
      (∀ b < 8, (t.getV x).getLsbD b = ((s.getV x).getLsbD b || (s.getV y).getLsbD b)) ∧
      t.pc = s.pc + 2 ∧ OnlyWrites { regs := fun r => r = x } s t) ∧
    (∃ t, exec (.andReg x y) s = .next t ∧
      (∀ b < 8, (t.getV x).getLsbD b = ((s.getV x).getLsbD b && (s.getV y).getLsbD b)) ∧
      t.pc = s.pc + 2 ∧ OnlyWrites { regs := fun r => r = x } s t) ∧
    ∃ t, exec (.xorReg x y) s = .next t ∧
      (∀ b < 8, (t.getV x).getLsbD b = ((s.getV x).getLsbD b ^^ (s.getV y).getLsbD b)) ∧
      t.pc = s.pc + 2 ∧ OnlyWrites { regs := fun r => r = x } s t

/-- ADD Vx, Vy (R208): the sum modulo 2^8 in V[x] unless x = F, then the carry out of bit 7 in VF, both from the
operands as they were. The low nibble is the spec's decision D2 from general knowledge (log 17). -/
def Obligations.AddRegSetsCarry : Prop :=
  EncodedBy 0xF00F 0x8004 (fun w => .addReg (xOf w) (yOf w)) ∧
  ∀ (x y : Reg) (s : State), ∃ t, exec (.addReg x y) s = .next t ∧
    (x ≠ 0xF → (t.getV x).toNat = ((s.getV x).toNat + (s.getV y).toNat) % 256) ∧
    t.getV 0xF = (if (s.getV x).toNat + (s.getV y).toNat > 0xFF then 1 else 0) ∧
    t.pc = s.pc + 2 ∧ OnlyWrites { regs := fun r => r = x ∨ r = 0xF } s t

/-- SUB Vx, Vy (R209; that equal operands give VF = 1 is the spec's own inference there): V[x] - V[y] modulo 2^8
unless x = F, then VF = 1 exactly when V[x] >= V[y]. The low nibble is the spec's decision D2 from general
knowledge (log 17). -/
def Obligations.SubSetsNoBorrow : Prop :=
  EncodedBy 0xF00F 0x8005 (fun w => .sub (xOf w) (yOf w)) ∧
  ∀ (x y : Reg) (s : State), ∃ t, exec (.sub x y) s = .next t ∧
    (x ≠ 0xF → (t.getV x).toNat = (256 + (s.getV x).toNat - (s.getV y).toNat) % 256) ∧
    t.getV 0xF = (if (s.getV x).toNat ≥ (s.getV y).toNat then 1 else 0) ∧
    t.pc = s.pc + 2 ∧ OnlyWrites { regs := fun r => r = x ∨ r = 0xF } s t

/-- SUBN Vx, Vy (R211): V[y] - V[x] modulo 2^8 unless x = F, then VF = 1 exactly when V[y] >= V[x]; the flag is
the spec's decision D4 and the low nibble its decision D2, both from general knowledge (logs 15 and 17). -/
def Obligations.SubnSetsNoBorrow : Prop :=
  EncodedBy 0xF00F 0x8007 (fun w => .subn (xOf w) (yOf w)) ∧
  ∀ (x y : Reg) (s : State), ∃ t, exec (.subn x y) s = .next t ∧
    (x ≠ 0xF → (t.getV x).toNat = (256 + (s.getV y).toNat - (s.getV x).toNat) % 256) ∧
    t.getV 0xF = (if (s.getV y).toNat ≥ (s.getV x).toNat then 1 else 0) ∧
    t.pc = s.pc + 2 ∧ OnlyWrites { regs := fun r => r = x ∨ r = 0xF } s t

/-- SHR (R210) for both values of SHIFT_SOURCE, a being the register it names, V[x] or V[y]: half of a in
V[x] unless x = F, then its bit 0 in VF. That the parameter is a field of State is the model's choice (D3, log 4),
the nibble the spec's decision D2 from general knowledge (log 17). -/
def Obligations.ShrShiftsOutBitZero : Prop :=
  EncodedBy 0xF00F 0x8006 (fun w => .shr (xOf w) (yOf w)) ∧
  ∀ (x y : Reg) (s : State) (a : Byte), (s.shiftSource = .vx → a = s.getV x) → (s.shiftSource = .vy → a = s.getV y) →
    ∃ t, exec (.shr x y) s = .next t ∧
      (x ≠ 0xF → (t.getV x).toNat = a.toNat / 2) ∧ (t.getV 0xF).toNat = a.toNat % 2 ∧
      t.pc = s.pc + 2 ∧ OnlyWrites { regs := fun r => r = x ∨ r = 0xF } s t

/-- SHL (R212) for both values of SHIFT_SOURCE, a being the register it names, V[x] or V[y]: twice a modulo 2^8 in
V[x] unless x = F, then its bit 7 in VF. That the parameter is a field of State is the model's choice (D3, log 4),
the nibble the spec's decision D2 from general knowledge (log 17). -/
def Obligations.ShlShiftsOutBitSeven : Prop :=
  EncodedBy 0xF00F 0x800E (fun w => .shl (xOf w) (yOf w)) ∧
  ∀ (x y : Reg) (s : State) (a : Byte), (s.shiftSource = .vx → a = s.getV x) → (s.shiftSource = .vy → a = s.getV y) →
    ∃ t, exec (.shl x y) s = .next t ∧
      (x ≠ 0xF → (t.getV x).toNat = a.toNat * 2 % 256) ∧ (t.getV 0xF).toNat = a.toNat / 128 ∧
      t.pc = s.pc + 2 ∧ OnlyWrites { regs := fun r => r = x ∨ r = 0xF } s t

/-- RND Vx, nn (R213): every bit that nn clears is 0 and every other is the bit of the next draw, whatever that
is; the draw is used up. That the byte is a free draw is D23 (log 5). -/
def Obligations.RndMasksAFreshDraw : Prop :=
  EncodedBy 0xF000 0xC000 (fun w => .rnd (xOf w) (nnOf w)) ∧
  ∀ (x : Reg) (nn : Byte) (s : State), ∃ t, exec (.rnd x nn) s = .next t ∧
    (∀ b < 8, nn.getLsbD b = false → (t.getV x).getLsbD b = false) ∧
    (∀ b < 8, nn.getLsbD b = true → (t.getV x).getLsbD b = (Config.freeByte s.draws).getLsbD b) ∧
    t.draws = s.draws + 1 ∧ t.pc = s.pc + 2 ∧ OnlyWrites { regs := fun r => r = x, draws := true } s t

/-- "VF is always written last, after the primary result" (10_state.md R36): the six flag-writing instructions
leave 0 or 1 in VF, whatever their operands are and even when VF is their destination (R35). That 8xy7 writes a flag
at all is the spec's decision D4 from general knowledge (logs 15 and 17). -/
def Obligations.FlagWritersLeaveZeroOrOneInVf : Prop :=
  ∀ (x y : Reg) (n : RowCount) (s t : State),
    (exec (.addReg x y) s = .next t ∨ exec (.sub x y) s = .next t ∨ exec (.shr x y) s = .next t ∨
      exec (.subn x y) s = .next t ∨ exec (.shl x y) s = .next t ∨ exec (.drw x y n) s = .next t) →
    t.getV 0xF = 0 ∨ t.getV 0xF = 1

/-- 10_state.md R33 for every instruction and both values of SHIFT_SOURCE (log 4): a register the instruction does not
read cannot change what it does, and comes out as it went in unless the instruction writes it. -/
def Obligations.UnreadRegistersCannotMatter : Prop :=
  ∀ (i : Instr) (s : State) (r : Reg) (b : Byte), ¬ readsReg s.shiftSource i r →
    (∀ f, exec i s = .fault f → exec i (s.setV r b) = .fault f) ∧
    ∀ t, exec i s = .next t →
      (writesReg i r → exec i (s.setV r b) = .next t) ∧
      (¬ writesReg i r → t.getV r = s.getV r ∧ exec i (s.setV r b) = .next (t.setV r b))

/-! ## Index register and memory (43_index_memory.md, 20_memory.md) -/

/-- LD I, nnn (R250): I takes nnn, no memory is touched. -/
def Obligations.LdISetsI : Prop :=
  EncodedBy 0xF000 0xA000 (fun w => .ldI (nnnOf w)) ∧
  ∀ (nnn : Addr12) (s : State), ∃ t, exec (.ldI nnn) s = .next t ∧
    t.i.toNat = nnn.toNat ∧ t.pc = s.pc + 2 ∧ OnlyWrites { index := true } s t

/-- ADD I, Vx (R251): the sum modulo 2^16, with no error above 0xFFF; VF is not written, which is the spec's
decision D6 (log 15). -/
def Obligations.AddIWrapsAtSixteenBits : Prop :=
  EncodedBy 0xF0FF 0xF01E (fun w => .addIVx (xOf w)) ∧
  ∀ (x : Reg) (s : State), ∃ t, exec (.addIVx x) s = .next t ∧
    t.i.toNat = (s.i.toNat + (s.getV x).toNat) % 65536 ∧ t.pc = s.pc + 2 ∧ OnlyWrites { index := true } s t

/-- LD F, Vx (R252): I is FONT_BASE + 5 * V[x] for a hexadecimal digit, for every FONT_BASE; above 0xF it raises
DigitOutOfRange, which is the spec's decision D13 (logs 2, 3 and 14). -/
def Obligations.LdFPointsAtTheGlyph : Prop :=
  EncodedBy 0xF0FF 0xF029 (fun w => .ldFVx (xOf w)) ∧
  (∀ (x : Reg) (s : State), (s.getV x).toNat ≤ 0xF → ∃ t, exec (.ldFVx x) s = .next t ∧
    t.i.toNat = fontBase + 5 * (s.getV x).toNat ∧ t.pc = s.pc + 2 ∧ OnlyWrites { index := true } s t) ∧
  ∀ (x : Reg) (s : State), 0xF < (s.getV x).toNat →
    exec (.ldFVx x) s = .fault (.digitOutOfRange (encode (.ldFVx x)) s.pc)

/-- The glyph found by Fx29 (R253, an inference of the spec from the font placement): its five rows can always be
drawn, and in a new core they are FONT_DATA's (10_state.md R47, log 3). -/
def Obligations.GlyphsCanAlwaysBeDrawn : Prop :=
  (∀ (s t : State) (x a b : Reg), exec (.ldFVx x) s = .next t → ∃ u, exec (.drw a b 5) t = .next u) ∧
  ∀ (s t : State) (x : Reg) (d : Fin 16) (k : Fin 5), s.mem = State.create.mem → (s.getV x).toNat = d.val →
    exec (.ldFVx x) s = .next t → Memory.read t.mem (t.i.toNat + k.val) = (Config.glyph d)[k]

/-- LD B, Vx (R254): the hundreds, tens and ones of V[x] at I, I + 1, I + 2 and nothing else; with I + 2 above
0xFFF it raises MemoryOutOfRange. -/
def Obligations.LdBStoresDecimalDigits : Prop :=
  EncodedBy 0xF0FF 0xF033 (fun w => .ldBVx (xOf w)) ∧
  (∀ (x : Reg) (s : State), s.i.toNat + 2 ≤ 0xFFF → ∃ t, exec (.ldBVx x) s = .next t ∧
    (Memory.read t.mem s.i.toNat).toNat = (s.getV x).toNat / 100 ∧
    (Memory.read t.mem (s.i.toNat + 1)).toNat = (s.getV x).toNat / 10 % 10 ∧
    (Memory.read t.mem (s.i.toNat + 2)).toNat = (s.getV x).toNat % 10 ∧
    t.pc = s.pc + 2 ∧ OnlyWrites { mem := fun a => s.i.toNat ≤ a ∧ a ≤ s.i.toNat + 2 } s t) ∧
  ∀ (x : Reg) (s : State), s.i.toNat + 2 > 0xFFF →
    exec (.ldBVx x) s = .fault (.memoryOutOfRange (some (encode (.ldBVx x))) s.pc)

/-- LD [I], Vx (R255): V[0..=x] at I onward and nothing else, I unchanged, which is the spec's decision D7
(log 15); with I + x above 0xFFF it raises MemoryOutOfRange. -/
def Obligations.LdMemStoresRegisters : Prop :=
  EncodedBy 0xF0FF 0xF055 (fun w => .ldMemVx (xOf w)) ∧
  (∀ (x : Reg) (s : State), s.i.toNat + x.val ≤ 0xFFF → ∃ t, exec (.ldMemVx x) s = .next t ∧
    (∀ r ≤ x, Memory.read t.mem (s.i.toNat + r.val) = s.getV r) ∧
    t.pc = s.pc + 2 ∧ OnlyWrites { mem := fun a => s.i.toNat ≤ a ∧ a ≤ s.i.toNat + x.val } s t) ∧
  ∀ (x : Reg) (s : State), s.i.toNat + x.val > 0xFFF →
    exec (.ldMemVx x) s = .fault (.memoryOutOfRange (some (encode (.ldMemVx x))) s.pc)

/-- LD Vx, [I] (R256): V[0..=x] from I onward, VF included when x = F, the registers above x and I unchanged, the
latter the spec's decision D7 (log 15); with I + x above 0xFFF it raises MemoryOutOfRange. -/
def Obligations.LdVxMemLoadsRegisters : Prop :=
  EncodedBy 0xF0FF 0xF065 (fun w => .ldVxMem (xOf w)) ∧
  (∀ (x : Reg) (s : State), s.i.toNat + x.val ≤ 0xFFF → ∃ t, exec (.ldVxMem x) s = .next t ∧
    (∀ r ≤ x, t.getV r = Memory.read s.mem (s.i.toNat + r.val)) ∧
    t.pc = s.pc + 2 ∧ OnlyWrites { regs := fun r => r ≤ x } s t) ∧
  ∀ (x : Reg) (s : State), s.i.toNat + x.val > 0xFFF →
    exec (.ldVxMem x) s = .fault (.memoryOutOfRange (some (encode (.ldVxMem x))) s.pc)

/-- What Fx55 stores, Fx65 loads back: from any later state with the same memory and the same I, every register
of the range has the value it was stored with (R255, R256). -/
def Obligations.BlockStoreThenLoadRestores : Prop :=
  ∀ (s t u : State) (x : Reg), exec (.ldMemVx x) s = .next t →
    (∀ a, Memory.read u.mem a = Memory.read t.mem a) → u.i = s.i →
    ∃ w, exec (.ldVxMem x) u = .next w ∧ ∀ r, (r ≤ x → w.getV r = s.getV r) ∧ (x < r → w.getV r = u.getV r)

/-- Self-modifying code works (20_memory.md R80, an inference of the spec): a program that stores two bytes over
the instruction after it executes the new word next. -/
def Obligations.StoredInstructionRunsNext : Prop :=
  ∀ (s t : State) (i : Instr), s.kw = .notWaiting → fetch s = some (encode (.ldMemVx 1)) →
    s.pc.toNat + 2 ≤ 0xFFE → s.i = s.pc + 2 → step s = .next t →
    decode (bigEndian (s.getV 0) (s.getV 1)) = some i → step t = exec i t

/-- 20_memory.md R72: a step changes a byte of memory only by Fx33, at I .. I + 2, or by Fx55, at I .. I + x. -/
def Obligations.OnlyStoresChangeMemory : Prop :=
  ∀ (s t : State) (a : Nat), step s = .next t → Memory.read t.mem a ≠ Memory.read s.mem a →
    ∃ w x, fetch s = some w ∧ s.i.toNat ≤ a ∧
      ((decode w = some (.ldBVx x) ∧ a ≤ s.i.toNat + 2) ∨ (decode w = some (.ldMemVx x) ∧ a ≤ s.i.toNat + x.val))

/-! ## Display (44_display.md) -/

/-- CLS (R290): every pixel 0 and REDRAW set, whether or not it was clear; VF and all else unchanged. -/
def Obligations.ClsClearsTheFrame : Prop :=
  EncodedBy 0xFFFF 0x00E0 (fun _ => .cls) ∧
  ∀ s : State, ∃ t, exec .cls s = .next t ∧ (∀ c r, t.fb.pixel c r = false) ∧ t.redraw = true ∧
    t.pc = s.pc + 2 ∧ OnlyWrites { frame := true, redraw := true } s t

/-- DRW Vx, Vy, n (R291, R292): each pixel a 1 bit of the sprite lands on is flipped and every other kept; VF is 1
exactly when a flipped pixel was 1; REDRAW is set; the coordinates are those before VF was written; outside memory
it raises MemoryOutOfRange, and n = 0 never does. Wrapping, n = 0 and the check are the spec's decision D22, the bit
order and the axes its general knowledge (logs 15 and 17). -/
def Obligations.DrwFlipsTheSpritePixels : Prop :=
  EncodedBy 0xF000 0xD000 (fun w => .drw (xOf w) (yOf w) (nOf w)) ∧
  (∀ (x y : Reg) (n : RowCount) (s : State), n.val = 0 ∨ s.i.toNat + n.val - 1 ≤ 0xFFF →
    ∃ t, exec (.drw x y n) s = .next t ∧
      (∀ (c : Fin 64) (q : Fin 32),
        (SpriteCovers s (s.getV x).toNat (s.getV y).toNat n.val c.val q.val →
          t.fb.pixel c q = !s.fb.pixel c q) ∧
        (¬ SpriteCovers s (s.getV x).toNat (s.getV y).toNat n.val c.val q.val →
          t.fb.pixel c q = s.fb.pixel c q)) ∧
      ((∃ (c : Fin 64) (q : Fin 32), s.fb.pixel c q = true ∧
          SpriteCovers s (s.getV x).toNat (s.getV y).toNat n.val c.val q.val) → t.getV 0xF = 1) ∧
      ((¬ ∃ (c : Fin 64) (q : Fin 32), s.fb.pixel c q = true ∧
          SpriteCovers s (s.getV x).toNat (s.getV y).toNat n.val c.val q.val) → t.getV 0xF = 0) ∧
      t.redraw = true ∧ t.pc = s.pc + 2 ∧
      OnlyWrites { regs := fun r => r = 0xF, frame := true, redraw := true } s t) ∧
  ∀ (x y : Reg) (n : RowCount) (s : State), n.val > 0 → s.i.toNat + n.val - 1 > 0xFFF →
    exec (.drw x y n) s = .fault (.memoryOutOfRange (some (encode (.drw x y n))) s.pc)

/-- The XOR inverse law (R294, an inference of the spec, C5): drawing the same bytes at the same place a second
time restores every pixel, and sets VF exactly when some covered pixel was 0 before the first draw; R294's own
words, "exactly when the sprite has at least one 1 bit", hold where every covered pixel was 0, and where one was
not they contradict R291 and R292 (log 20). Wrapping is the spec's decision D22, the bit order and the axes its general
knowledge (logs 15 and 17). -/
def Obligations.DrawingTwiceRestoresTheFrame : Prop :=
  ∀ (s t u : State) (x y : Reg) (n : RowCount), exec (.drw x y n) s = .next t →
    u.fb = t.fb → u.i = s.i → u.getV x = s.getV x → u.getV y = s.getV y →
    (∀ r < n.val, Memory.read u.mem (s.i.toNat + r) = Memory.read s.mem (s.i.toNat + r)) →
    ∃ w, exec (.drw x y n) u = .next w ∧ (∀ c q, w.fb.pixel c q = s.fb.pixel c q) ∧
      (w.getV 0xF = 1 ↔ ∃ (c : Fin 64) (q : Fin 32),
        SpriteCovers s (s.getV x).toNat (s.getV y).toNat n.val c.val q.val ∧ s.fb.pixel c q = false) ∧
      ((∀ (c : Fin 64) (q : Fin 32), SpriteCovers s (s.getV x).toNat (s.getV y).toNat n.val c.val q.val →
          s.fb.pixel c q = false) →
        (w.getV 0xF = 1 ↔ ∃ r < n.val, Memory.read s.mem (s.i.toNat + r) ≠ 0))

/-- R295: a step that executes 00E0 or Dxyn sets REDRAW; no other step changes REDRAW or a pixel; so no step
clears REDRAW, and the host's operation does. -/
def Obligations.RedrawFollowsTheDisplay : Prop :=
  (∀ (s t : State) (w : Word), s.kw = .notWaiting → fetch s = some w → step s = .next t →
    (decode w = some .cls ∨ ∃ x y n, decode w = some (.drw x y n)) → t.redraw = true) ∧
  (∀ (s t : State), step s = .next t → (t.redraw ≠ s.redraw ∨ ∃ c q, t.fb.pixel c q ≠ s.fb.pixel c q) →
    ∃ w, fetch s = some w ∧ (decode w = some .cls ∨ ∃ x y n, decode w = some (.drw x y n))) ∧
  (∀ (s t : State), step s = .next t → s.redraw = true → t.redraw = true) ∧
  ∀ s : State, (clearRedrawPending s).redraw = false

/-! ## Keys and timers (45_input_timers.md, 60_exceptions.md) -/

/-- SKP and SKNP (R320, R321): skip by the latch of key V[x]; above 0xF they raise KeyOutOfRange, which is the
spec's decision D12 (log 14). -/
def Obligations.KeySkipsReadTheLatch : Prop :=
  EncodedBy 0xF0FF 0xE09E (fun w => .skp (xOf w)) ∧ EncodedBy 0xF0FF 0xE0A1 (fun w => .sknp (xOf w)) ∧
  (∀ (x : Reg) (k : Key) (s : State), (s.getV x).toNat = k.val →
    (∃ t, exec (.skp x) s = .next t ∧ t.pc = (if s.getKey k = true then s.pc + 4 else s.pc + 2) ∧
      OnlyWrites {} s t) ∧
    ∃ t, exec (.sknp x) s = .next t ∧ t.pc = (if s.getKey k = true then s.pc + 2 else s.pc + 4) ∧
      OnlyWrites {} s t) ∧
  ∀ (x : Reg) (s : State), 0xF < (s.getV x).toNat →
    exec (.skp x) s = .fault (.keyOutOfRange (encode (.skp x)) s.pc) ∧
    exec (.sknp x) s = .fault (.keyOutOfRange (encode (.sknp x)) s.pc)

/-- LD Vx, DT and LD DT, Vx (R322, R326): the delay timer is read and written whole. -/
def Obligations.DelayTimerReadAndWrite : Prop :=
  EncodedBy 0xF0FF 0xF007 (fun w => .ldVxDt (xOf w)) ∧ EncodedBy 0xF0FF 0xF015 (fun w => .ldDtVx (xOf w)) ∧
  (∀ (x : Reg) (s : State), ∃ t, exec (.ldVxDt x) s = .next t ∧ t.getV x = s.dt ∧ t.pc = s.pc + 2 ∧
    OnlyWrites { regs := fun r => r = x } s t) ∧
  ∀ (x : Reg) (s : State), ∃ t, exec (.ldDtVx x) s = .next t ∧ t.dt = s.getV x ∧ t.pc = s.pc + 2 ∧
    OnlyWrites { delay := true } s t

/-- LD ST, Vx (R327, with the inference the spec draws there): ST takes V[x], and the next tick beeps exactly when
the value written was 1. -/
def Obligations.SoundTimerWriteThenTick : Prop :=
  EncodedBy 0xF0FF 0xF018 (fun w => .ldStVx (xOf w)) ∧
  ∀ (x : Reg) (s : State), ∃ t, exec (.ldStVx x) s = .next t ∧ t.st = s.getV x ∧ t.pc = s.pc + 2 ∧
    OnlyWrites { sound := true } s t ∧ ((tickTimers t).2 = true ↔ s.getV x = 1)

/-- LD Vx, K (R323): the wait begins with x; PC stays and no register is written. -/
def Obligations.LdVxKStartsTheWait : Prop :=
  EncodedBy 0xF0FF 0xF00A (fun w => .ldVxK (xOf w)) ∧
  ∀ (x : Reg) (s : State), ∃ t, exec (.ldVxK x) s = .next t ∧ t.kw = .waiting x ∧ t.pc = s.pc ∧
    OnlyWrites { keyWait := true } s t

/-- The life of a key-wait (R324, protocol D19, log 15): after Fx0A, any number of steps, ticks, releases, loads
and reads leave PC, the registers and the wait alone; then a press of k and one step put k into V[x], advance PC
by 2 and end the wait; a reset ends it instead. A key held when Fx0A ran does not matter. -/
def Obligations.KeyWaitLifecycle : Prop :=
  ∀ (s t : State) (x : Reg) (ops : List HostOp), exec (.ldVxK x) s = .next t → (∀ op ∈ ops, LeavesKeyWait op) →
    (transactAll ops t).kw = .waiting x ∧ (transactAll ops t).pc = s.pc ∧
    (∀ r, (transactAll ops t).getV r = s.getV r) ∧
    (∀ k : Key, ((transactAll (ops ++ [.setKey k true, .step]) t).getV x).toNat = k.val ∧
      (transactAll (ops ++ [.setKey k true, .step]) t).pc = s.pc + 2 ∧
      (transactAll (ops ++ [.setKey k true, .step]) t).kw = .notWaiting ∧
      ∀ r, r ≠ x → (transactAll (ops ++ [.setKey k true, .step]) t).getV r = s.getV r) ∧
    (transactAll (ops ++ [.reset]) t).kw = .notWaiting

/-- set_key (60_exceptions.md R364; protocol D19): the latch takes the value; a press while waiting captures the
key; while captured the first key stands; otherwise the key-wait state is unchanged; nothing else changes. -/
def Obligations.SetKeyLatchesAndCaptures : Prop :=
  ∀ (k : Key) (pressed : Bool) (s : State),
    (setKey k pressed s).getKey k = pressed ∧ (setKey k pressed s).pc = s.pc ∧
    (∀ x, s.kw = .waiting x → (setKey k pressed s).kw = if pressed then .captured x k else .waiting x) ∧
    ((¬ ∃ x, s.kw = .waiting x) → (setKey k pressed s).kw = s.kw) ∧
    OnlyWrites { keys := fun j => j = k, keyWait := true } s (setKey k pressed s)

/-- Repeated ticks (60_exceptions.md R360): after n of them each timer is n lower and never below 0, the beep has
fired exactly once if ST came down from n or less to 0 and not at all otherwise, and nothing else changed. That a
tick works in every state is D33, that the beep is only an output D20 (log 12). -/
def Obligations.TicksCountDownAndBeepOnce : Prop :=
  ∀ (n : Nat) (s : State),
    (tickTimes n s).1.dt.toNat = s.dt.toNat - n ∧ (tickTimes n s).1.st.toNat = s.st.toNat - n ∧
    (tickTimes n s).2 = (if 1 ≤ s.st.toNat ∧ s.st.toNat ≤ n then 1 else 0) ∧
    (tickTimes n s).1.pc = s.pc ∧ OnlyWrites { delay := true, sound := true } s (tickTimes n s).1

/-! ## The host's operations (60_exceptions.md, 70_reset_and_hazards.md) -/

/-- load (60_exceptions.md R362; in any state, D27): up to 3584 bytes land at 0x200 onward and nothing else
changes, PC included; a longer ROM is refused with its length and nothing written. -/
def Obligations.LoadWritesTheProgram : Prop :=
  ∀ (rom : List Byte) (s : State),
    (rom.length ≤ 3584 → ∃ t, hostLoad rom s = .next t ∧
      (∀ k (h : k < rom.length), Memory.read t.mem (0x200 + k) = rom[k]) ∧ t.pc = s.pc ∧
      OnlyWrites { mem := fun a => 0x200 ≤ a ∧ a < 0x200 + rom.length } s t) ∧
    (rom.length > 3584 → transact (.load rom) s = (s, .err (.romTooLarge rom.length)))

/-- create (70_reset_and_hazards.md R400, 10_state.md R48): every value of the "after create" column, memory as
read included, for every FONT_BASE. The values other than PC are the spec's decisions D16, D18 and D32; that
State.reset is this state is the model's choice (logs 1, 7 and 15). -/
def Obligations.CreateLeavesTheListedValues : Prop :=
  (∀ s : State, (transact .create s).1 = { State.reset with shiftSource := s.shiftSource, draws := s.draws }) ∧
  State.reset.pc = 0x200 ∧ State.reset.i = 0 ∧ State.reset.sp.val = 0 ∧ State.reset.dt = 0 ∧ State.reset.st = 0 ∧
  State.reset.kw = .notWaiting ∧ State.reset.redraw = false ∧
  (∀ r, State.reset.getV r = 0) ∧ (∀ k : Fin 16, State.reset.stack[k] = 0) ∧
  (∀ k, State.reset.getKey k = false) ∧ (∀ c r, State.reset.fb.pixel c r = false) ∧
  fontBase + 80 ≤ 0x200 ∧
  (∀ (d : Fin 16) (k : Fin 5), Memory.read State.reset.mem (fontBase + 5 * d.val + k.val) = (Config.glyph d)[k]) ∧
  ∀ a, a < fontBase ∨ fontBase + 80 ≤ a → Memory.read State.reset.mem a = 0

/-- reset (70_reset_and_hazards.md R401): from any state, every value of the "after reset" column of 10_state.md
R48, the reserved region unchanged, and every byte of program memory a draw of its own, whatever it is. The values
are the spec's decisions D17, D18 and D32 (logs 6 and 15). -/
def Obligations.ResetLeavesTheListedValues : Prop :=
  ∀ s : State,
    (hostReset s).pc = 0x200 ∧ (hostReset s).i = 0 ∧ (hostReset s).sp.val = 0 ∧ (hostReset s).dt = 0 ∧
    (hostReset s).st = 0 ∧ (hostReset s).kw = .notWaiting ∧ (hostReset s).redraw = true ∧
    (∀ r, (hostReset s).getV r = 0) ∧ (∀ k : Fin 16, (hostReset s).stack[k] = 0) ∧
    (∀ k, (hostReset s).getKey k = false) ∧ (∀ c r, (hostReset s).fb.pixel c r = false) ∧
    (∀ a, a < 0x200 → Memory.read (hostReset s).mem a = Memory.read s.mem a) ∧
    (∀ k, k < 3584 → Memory.read (hostReset s).mem (0x200 + k) = Config.freeByte (s.draws + k)) ∧
    (hostReset s).shiftSource = s.shiftSource ∧ (hostReset s).draws = s.draws + 3584

/-- The host's reads (60_exceptions.md R367, R368, R372): redraw_pending returns REDRAW and changes nothing,
clear_redraw_pending sets it to false and changes nothing else, set_metadata accepts every mapping and changes
nothing. -/
def Obligations.HostFlagOperations : Prop :=
  ∀ (s : State) (options : List (String × String)),
    transact .redrawPending s = (s, .flag s.redraw) ∧
    ((transact .clearRedrawPending s).1.redraw = false ∧ (transact .clearRedrawPending s).1.pc = s.pc ∧
      OnlyWrites { redraw := true } s (transact .clearRedrawPending s).1) ∧
    transact (.setMetadata options) s = (s, .nothing)

/-- The "state written" column of 60_exceptions.md R370 for every operation but create, step and reset, and R356:
none of them changes PC. -/
def Obligations.HostOperationsWriteOnlyTheirColumn : Prop :=
  ∀ (op : HostOp) (s : State), op ≠ .create → op ≠ .step → op ≠ .reset →
    (transact op s).1.pc = s.pc ∧ OnlyWrites (writtenBy op) s (transact op s).1

/-! ## Invariants and what programs cannot see -/

/-- The machine starts inside its invariants. -/
def Obligations.ResetMeetsTheInvariants : Prop :=
  Inv State.reset ∧ KeyWaitStandsOnItsInstruction State.reset

/-- Every step keeps the invariants: memory in canonical form; PC at most 0x10FE (40_engine.md R137); every return
address in use at most 0x1000 (41_flow.md R160); PC fetchable during a key-wait, and the word there the Fx0A that
started it (10_state.md R39). -/
def Obligations.StepKeepsTheInvariants : Prop :=
  ∀ s t : State, Inv s → KeyWaitStandsOnItsInstruction s → step s = .next t →
    Inv t ∧ KeyWaitStandsOnItsInstruction t

/-- Every sequence of host operations keeps the invariants that do not speak of the program's bytes
(60_exceptions.md R370: the state evolves by their sequence alone). -/
def Obligations.HostOperationsKeepTheInvariants : Prop :=
  ∀ (ops : List HostOp) (s : State), Inv s → Inv (transactAll ops s)

/-- What a program cannot observe (10_state.md R41, R42, R50; the stale slots are the spec's decision D24): two
states that differ only in ST, REDRAW and stack slots not in use step to the same error or to two such states
again. -/
def Obligations.ProgramsCannotSeeSoundRedrawOrStaleSlots : Prop :=
  ∀ s t : State, SameToPrograms s t →
    (∀ f, step s = .fault f → step t = .fault f) ∧
    ∀ s', step s = .next s' → ∃ t', step t = .next t' ∧ SameToPrograms s' t'
end

