-- ==== Sys2Proof/Laws/Decode.lean ====
section
/-! SUPPORT. The fields of a packed word and the word of its fields, what the masks of the opcode map say of the
fields, and the byte order. -/

namespace Sys2Proof

/-- Concatenation as arithmetic. -/
theorem toNat_append_add {m n : Nat} (a : BitVec m) (b : BitVec n) :
    (a ++ b).toNat = a.toNat * 2 ^ n + b.toNat := by
  rw [BitVec.toNat_append, ← Nat.shiftLeft_add_eq_or_of_lt b.isLt, Nat.shiftLeft_eq]

/-! ## Fields of packed words -/

@[simp] theorem opOf_pack4 (op : BitVec 4) (x y n : Fin 16) : opOf (pack4 op x y n) = op := by
  apply BitVec.eq_of_toNat_eq
  simp only [opOf, pack4, BitVec.extractLsb'_toNat, toNat_append_add, Nat.shiftRight_eq_div_pow, BitVec.toNat_ofFin]
  omega

@[simp] theorem xOf_pack4 (op : BitVec 4) (x y n : Fin 16) : xOf (pack4 op x y n) = x := by
  apply Fin.ext
  simp only [xOf, pack4, BitVec.val_toFin, BitVec.extractLsb'_toNat, toNat_append_add, Nat.shiftRight_eq_div_pow,
    BitVec.toNat_ofFin]
  omega

@[simp] theorem yOf_pack4 (op : BitVec 4) (x y n : Fin 16) : yOf (pack4 op x y n) = y := by
  apply Fin.ext
  simp only [yOf, pack4, BitVec.val_toFin, BitVec.extractLsb'_toNat, toNat_append_add, Nat.shiftRight_eq_div_pow,
    BitVec.toNat_ofFin]
  omega

@[simp] theorem nOf_pack4 (op : BitVec 4) (x y n : Fin 16) : nOf (pack4 op x y n) = n := by
  apply Fin.ext
  simp only [nOf, pack4, BitVec.val_toFin, BitVec.extractLsb'_toNat, toNat_append_add, Nat.shiftRight_eq_div_pow,
    BitVec.toNat_ofFin]
  omega

@[simp] theorem opOf_packByte (op : BitVec 4) (x : Fin 16) (nn : Byte) : opOf (packByte op x nn) = op := by
  apply BitVec.eq_of_toNat_eq
  simp only [opOf, packByte, BitVec.extractLsb'_toNat, toNat_append_add, Nat.shiftRight_eq_div_pow,
    BitVec.toNat_ofFin]
  omega

@[simp] theorem xOf_packByte (op : BitVec 4) (x : Fin 16) (nn : Byte) : xOf (packByte op x nn) = x := by
  apply Fin.ext
  simp only [xOf, packByte, BitVec.val_toFin, BitVec.extractLsb'_toNat, toNat_append_add,
    Nat.shiftRight_eq_div_pow, BitVec.toNat_ofFin]
  omega

@[simp] theorem nnOf_packByte (op : BitVec 4) (x : Fin 16) (nn : Byte) : nnOf (packByte op x nn) = nn := by
  apply BitVec.eq_of_toNat_eq
  simp only [nnOf, packByte, BitVec.extractLsb'_toNat, toNat_append_add, Nat.shiftRight_eq_div_pow,
    BitVec.toNat_ofFin]
  omega

@[simp] theorem opOf_packAddr (op : BitVec 4) (nnn : Addr12) : opOf (packAddr op nnn) = op := by
  apply BitVec.eq_of_toNat_eq
  simp only [opOf, packAddr, BitVec.extractLsb'_toNat, toNat_append_add, Nat.shiftRight_eq_div_pow]
  omega

@[simp] theorem nnnOf_packAddr (op : BitVec 4) (nnn : Addr12) : nnnOf (packAddr op nnn) = nnn := by
  apply BitVec.eq_of_toNat_eq
  simp only [nnnOf, packAddr, BitVec.extractLsb'_toNat, toNat_append_add, Nat.shiftRight_eq_div_pow]
  omega

/-! ## A word is its fields -/

theorem pack4_fields (w : Word) : pack4 (opOf w) (xOf w) (yOf w) (nOf w) = w := by
  apply BitVec.eq_of_toNat_eq
  simp only [pack4, opOf, xOf, yOf, nOf, BitVec.ofFin_toFin, BitVec.extractLsb'_toNat, toNat_append_add,
    Nat.shiftRight_eq_div_pow]
  omega

theorem packByte_fields (w : Word) : packByte (opOf w) (xOf w) (nnOf w) = w := by
  apply BitVec.eq_of_toNat_eq
  simp only [packByte, opOf, xOf, nnOf, BitVec.ofFin_toFin, BitVec.extractLsb'_toNat, toNat_append_add,
    Nat.shiftRight_eq_div_pow]
  omega

theorem packAddr_fields (w : Word) : packAddr (opOf w) (nnnOf w) = w := by
  apply BitVec.eq_of_toNat_eq
  simp only [packAddr, opOf, nnnOf, BitVec.extractLsb'_toNat, toNat_append_add, Nat.shiftRight_eq_div_pow]
  omega

/-! ## What a mask leaves of a word -/

theorem and_familyMask (w : Word) : w &&& 0xF000#16 = packAddr (opOf w) 0 := by
  have hm : (0xF000#16 : Word) = (BitVec.allOnes 4 ++ 0#12 : BitVec (4 + 12)) := by decide
  have h := BitVec.and_append (x₁ := opOf w) (x₂ := BitVec.allOnes 4) (y₁ := nnnOf w) (y₂ := 0#12)
  rw [BitVec.and_allOnes, BitVec.and_zero] at h
  conv_lhs => rw [← packAddr_fields w]
  rw [hm]
  exact h

theorem and_pairMask (w : Word) : w &&& 0xF00F#16 = pack4 (opOf w) 0 0 (nOf w) := by
  have hm : (0xF00F#16 : Word) =
      (BitVec.allOnes 4 ++ 0#4 ++ 0#4 ++ BitVec.allOnes 4 : BitVec (4 + 4 + 4 + 4)) := by decide
  have h := BitVec.and_append (x₁ := opOf w ++ BitVec.ofFin (w := 4) (xOf w) ++ BitVec.ofFin (w := 4) (yOf w))
    (x₂ := BitVec.allOnes 4 ++ 0#4 ++ 0#4) (y₁ := BitVec.ofFin (w := 4) (nOf w)) (y₂ := BitVec.allOnes 4)
  conv_lhs => rw [← pack4_fields w]
  rw [hm]
  refine h.trans ?_
  rw [BitVec.and_append, BitVec.and_append, BitVec.and_allOnes, BitVec.and_allOnes, BitVec.and_zero,
    BitVec.and_zero]
  rfl

theorem and_singleMask (w : Word) : w &&& 0xF0FF#16 = packByte (opOf w) 0 (nnOf w) := by
  have hm : (0xF0FF#16 : Word) = (BitVec.allOnes 4 ++ 0#4 ++ BitVec.allOnes 8 : BitVec (4 + 4 + 8)) := by decide
  have h := BitVec.and_append (x₁ := opOf w ++ BitVec.ofFin (w := 4) (xOf w)) (x₂ := BitVec.allOnes 4 ++ 0#4)
    (y₁ := nnOf w) (y₂ := BitVec.allOnes 8)
  conv_lhs => rw [← packByte_fields w]
  rw [hm]
  refine h.trans ?_
  rw [BitVec.and_append, BitVec.and_allOnes, BitVec.and_allOnes, BitVec.and_zero]
  rfl

/-- A row that fixes the family nibble only matches exactly the words of its family. -/
theorem familyMask_iff (w : Word) (op : BitVec 4) : w &&& 0xF000#16 = packAddr op 0 ↔ opOf w = op := by
  rw [and_familyMask]
  refine ⟨fun h => ?_, fun h => by rw [h]⟩
  simpa using congrArg opOf h

/-- A row that fixes the family nibble and the lowest one. -/
theorem pairMask_iff (w : Word) (op : BitVec 4) (n : Fin 16) :
    w &&& 0xF00F#16 = pack4 op 0 0 n ↔ opOf w = op ∧ nOf w = n := by
  rw [and_pairMask]
  refine ⟨fun h => ⟨?_, ?_⟩, fun h => by rw [h.1, h.2]⟩
  · simpa using congrArg opOf h
  · simpa using congrArg nOf h

/-- A row that fixes the family nibble and the low byte. -/
theorem singleMask_iff (w : Word) (op : BitVec 4) (nn : Byte) :
    w &&& 0xF0FF#16 = packByte op 0 nn ↔ opOf w = op ∧ nnOf w = nn := by
  rw [and_singleMask]
  refine ⟨fun h => ⟨?_, ?_⟩, fun h => by rw [h.1, h.2]⟩
  · simpa using congrArg opOf h
  · simpa using congrArg nnOf h

/-! ## Byte order (20_memory.md R76) -/

@[simp] theorem bigEndian_bytes (w : Word) : bigEndian (highByte w) (lowByte w) = w := by
  apply BitVec.eq_of_toNat_eq
  simp only [bigEndian, highByte, lowByte, BitVec.extractLsb'_toNat, toNat_append_add, Nat.shiftRight_eq_div_pow]
  omega

@[simp] theorem highByte_bigEndian (hi lo : Byte) : highByte (bigEndian hi lo) = hi := by
  apply BitVec.eq_of_toNat_eq
  simp only [bigEndian, highByte, BitVec.extractLsb'_toNat, toNat_append_add, Nat.shiftRight_eq_div_pow]
  omega

@[simp] theorem lowByte_bigEndian (hi lo : Byte) : lowByte (bigEndian hi lo) = lo := by
  apply BitVec.eq_of_toNat_eq
  simp only [bigEndian, lowByte, BitVec.extractLsb'_toNat, toNat_append_add, Nat.shiftRight_eq_div_pow]
  omega

/-- The byte decoder on the bytes of a word that is an instruction. -/
theorem decodeBytes_of_decode (w : Word) (i : Instr) (rest : List Byte) (h : decode w = some i) :
    decodeBytes (wordBytes w ++ rest) = .ok (i, rest) := by
  simp [decodeBytes, wordBytes, h]

/-- The byte decoder on the bytes of a word that is none. -/
theorem decodeBytes_of_none (w : Word) (rest : List Byte) (h : decode w = none) :
    decodeBytes (wordBytes w ++ rest) = .error (.unrecognized w) := by
  simp [decodeBytes, wordBytes, h]

/-! ## The decoder by family -/

theorem decode_of_op8 (w : Word) (h : opOf w = 0x8) : decode w = decodePair (xOf w) (yOf w) (nOf w).val := by
  simp [decode, h]

theorem decode_of_opE (w : Word) (h : opOf w = 0xE) : decode w = decodeKey (xOf w) (nnOf w).toNat := by
  simp [decode, h]

theorem decode_of_opF (w : Word) (h : opOf w = 0xF) : decode w = decodeMisc (xOf w) (nnOf w).toNat := by
  simp [decode, h]

end Sys2Proof
end

