-- ==== Sys2Proof/Laws/Display.lean ====
section
/-! SUPPORT. What drawing does to a pixel and when it hits (44_display.md R291, R292): one lemma for the bits of
a row, one for the rows of a sprite, one for a sprite. -/

namespace Sys2Proof.Machine

@[simp] theorem pixel_clearFrame (c : Fin 64) (r : Fin 32) : clearFrame.pixel c r = false := by
  simp [clearFrame, Frame.pixel]

@[simp] theorem pixel_flipPixel_same (f : Frame) (c : Fin 64) (r : Fin 32) :
    (flipPixel f c r).pixel c r = !f.pixel c r := by
  simp [flipPixel, Frame.pixel]

/-- Flipping one pixel leaves every other. -/
theorem pixel_flipPixel_other (f : Frame) (c c' : Fin 64) (r r' : Fin 32) (h : ¬ (c' = c ∧ r' = r)) :
    (flipPixel f c r).pixel c' r' = f.pixel c' r' := by
  by_cases hc : c' = c
  · subst hc
    have : r.val ≠ r'.val := fun e => h ⟨rfl, Fin.ext e.symm⟩
    simp [flipPixel, Frame.pixel, this]
  · have : c.val ≠ c'.val := fun e => hc (Fin.ext e.symm)
    simp [flipPixel, Frame.pixel, this]

/-- What a drawing does: the pixels of a set are flipped and all others kept, and a hit is recorded exactly when
one was recorded before or a pixel of the set was 1. -/
def Flips (covered : Fin 64 → Fin 32 → Prop) (before after : Frame × Bool) : Prop :=
  (∀ c r, covered c r → after.1.pixel c r = !before.1.pixel c r) ∧
  (∀ c r, ¬ covered c r → after.1.pixel c r = before.1.pixel c r) ∧
  (after.2 = true ↔ before.2 = true ∨ ∃ c r, covered c r ∧ before.1.pixel c r = true)

/-- Drawing nothing. -/
theorem Flips.nothing (covered : Fin 64 → Fin 32 → Prop) (acc : Frame × Bool) (h : ∀ c r, ¬ covered c r) :
    Flips covered acc acc :=
  ⟨fun c r hc => absurd hc (h c r), fun _ _ _ => rfl, by simp [h]⟩

/-- Drawing twice on sets that do not meet is drawing on their union. -/
theorem Flips.trans {p q : Fin 64 → Fin 32 → Prop} {a b d : Frame × Bool} (hp : Flips p a b) (hq : Flips q b d)
    (apart : ∀ c r, p c r → ¬ q c r) : Flips (fun c r => p c r ∨ q c r) a d := by
  refine ⟨fun c r h => ?_, fun c r h => ?_, ?_⟩
  · rcases h with h | h
    · rw [hq.2.1 c r (apart c r h), hp.1 c r h]
    · rw [hq.1 c r h, hp.2.1 c r fun hc => apart c r hc h]
  · rw [hq.2.1 c r fun hc => h (.inr hc), hp.2.1 c r fun hc => h (.inl hc)]
  · rw [hq.2.2, hp.2.2, or_assoc]
    refine or_congr_right ⟨?_, ?_⟩
    · rintro (⟨c, r, h, hb⟩ | ⟨c, r, h, hb⟩)
      · exact ⟨c, r, .inl h, hb⟩
      · exact ⟨c, r, .inr h, by rwa [hp.2.1 c r fun hc => apart c r hc h] at hb⟩
    · rintro ⟨c, r, h | h, hb⟩
      · exact .inl ⟨c, r, h, hb⟩
      · exact .inr ⟨c, r, h, by rwa [hp.2.1 c r fun hc => apart c r hc h]⟩

/-- The same drawing under another name for its set. -/
theorem Flips.congr {p q : Fin 64 → Fin 32 → Prop} {a b : Frame × Bool} (h : Flips p a b)
    (hpq : ∀ c r, p c r ↔ q c r) : Flips q a b := by
  have : p = q := funext fun c => funext fun r => propext (hpq c r)
  exact this ▸ h

/-- Eight neighbouring bits land on eight different columns. -/
theorem spriteColumn_inj (cx a b : Nat) (ha : a < 8) (hb : b < 8) (h : spriteColumn cx a = spriteColumn cx b) :
    a = b := by
  have := congrArg Fin.val h
  simp only [spriteColumn, Fin.val_ofNat] at this
  omega

/-- Rows less than 32 apart land on different screen rows. -/
theorem spriteRow_inj (cy a b : Nat) (ha : a < 32) (hb : b < 32) (h : spriteRow cy a = spriteRow cy b) :
    a = b := by
  have := congrArg Fin.val h
  simp only [spriteRow, Fin.val_ofNat] at this
  omega

/-- One bit flips its pixel if it is 1. -/
theorem drawBit_flips (cx : Nat) (q : Fin 32) (row : Byte) (acc : Frame × Bool) (b : Nat) :
    Flips (fun c r => r = q ∧ row.getLsbD (7 - b) = true ∧ spriteColumn cx b = c) acc (drawBit cx q row acc b) := by
  by_cases hbit : row.getLsbD (7 - b) = true
  · simp only [drawBit, hbit, if_true]
    refine ⟨?_, ?_, ?_⟩
    · rintro c r ⟨rfl, -, rfl⟩
      simp
    · intro c r h
      exact pixel_flipPixel_other _ _ _ _ _ fun ⟨hc, hr⟩ => h ⟨hr, trivial, hc.symm⟩
    · simp only [Bool.or_eq_true]
      refine or_congr_right ⟨fun h => ⟨_, _, ⟨rfl, trivial, rfl⟩, h⟩, ?_⟩
      rintro ⟨c, r, ⟨rfl, -, rfl⟩, h⟩
      exact h
  · simp only [drawBit, hbit, if_false, Bool.false_eq_true]
    exact Flips.nothing _ acc fun c r h => absurd h.2.1 (by simp)

/-- The first m bits of a row flip the pixels of its 1 bits among them. -/
theorem drawBits_flips (cx : Nat) (q : Fin 32) (row : Byte) (acc : Frame × Bool) (m : Nat) (hm : m ≤ 8) :
    Flips (fun c r => r = q ∧ ∃ b < m, row.getLsbD (7 - b) = true ∧ spriteColumn cx b = c) acc
      ((List.range m).foldl (drawBit cx q row) acc) := by
  induction m with
  | zero => exact Flips.nothing _ acc (by simp)
  | succ m ih =>
    rw [List.range_succ, List.foldl_append, List.foldl_cons, List.foldl_nil]
    refine ((ih (by omega)).trans (drawBit_flips cx q row _ m) ?_).congr fun c r => ?_
    · rintro c r ⟨-, b, hb, -, hcol⟩ ⟨-, -, hm'⟩
      have := spriteColumn_inj cx b m (by omega) (by omega) (hcol.trans hm'.symm)
      omega
    · constructor
      · rintro (⟨hr, b, hb, h⟩ | ⟨hr, h⟩)
        · exact ⟨hr, b, by omega, h⟩
        · exact ⟨hr, m, by omega, h⟩
      · rintro ⟨hr, b, hb, h⟩
        rcases Nat.lt_succ_iff_lt_or_eq.1 hb with hb | rfl
        · exact .inl ⟨hr, b, hb, h⟩
        · exact .inr ⟨hr, h⟩

/-- The rows of a sprite from its row k on cover column c and screen row r. -/
def rowsCover (cx cy : Nat) (rows : List Byte) (k : Nat) (c : Fin 64) (r : Fin 32) : Prop :=
  ∃ j < rows.length, spriteRow cy (k + j) = r ∧
    ∃ b < 8, (rows.getD j 0).getLsbD (7 - b) = true ∧ spriteColumn cx b = c

/-- Covering by a first row or by the rest. -/
theorem rowsCover_cons (cx cy : Nat) (row : Byte) (rest : List Byte) (k : Nat) (c : Fin 64) (r : Fin 32) :
    rowsCover cx cy (row :: rest) k c r ↔
      (r = spriteRow cy k ∧ ∃ b < 8, row.getLsbD (7 - b) = true ∧ spriteColumn cx b = c) ∨
        rowsCover cx cy rest (k + 1) c r := by
  constructor
  · rintro ⟨j, hj, hr, hb⟩
    cases j with
    | zero => exact .inl ⟨hr.symm, hb⟩
    | succ j =>
      have hk : k + 1 + j = k + (j + 1) := by omega
      exact .inr ⟨j, by simpa using hj, by rwa [hk], hb⟩
  · rintro (⟨hr, hb⟩ | ⟨j, hj, hr, hb⟩)
    · exact ⟨0, by simp, hr.symm, hb⟩
    · have hk : k + 1 + j = k + (j + 1) := by omega
      exact ⟨j + 1, by simpa using hj, by rwa [← hk], hb⟩

/-- The rows of a sprite from its row k on flip the pixels they cover. -/
theorem drawRows_flips (cx cy : Nat) (rows : List Byte) (k : Nat) (acc : Frame × Bool) (hk : k + rows.length ≤ 32) :
    Flips (rowsCover cx cy rows k) acc (drawRows cx cy rows k acc) := by
  induction rows generalizing k acc with
  | nil => exact Flips.nothing _ acc (by simp [rowsCover])
  | cons row rest ih =>
    simp only [List.length_cons] at hk
    have first := drawBits_flips cx (spriteRow cy k) row acc 8 (Nat.le_refl 8)
    refine (first.trans (ih (k + 1) _ (by omega)) ?_).congr fun c r => (rowsCover_cons ..).symm
    rintro c r ⟨rfl, -⟩ ⟨j, hj, hr, -⟩
    have := spriteRow_inj cy (k + 1 + j) k (by omega) (by omega) hr
    omega

/-- A whole sprite of at most 32 rows flips the pixels it covers. -/
theorem drawSprite_flips (cx cy : Nat) (rows : List Byte) (f : Frame) (h : rows.length ≤ 32) :
    Flips (rowsCover cx cy rows 0) (f, false) (drawSprite cx cy rows f) :=
  drawRows_flips cx cy rows 0 (f, false) (by omega)

end Sys2Proof.Machine
end

