-- ==== Sys2Proof/Laws/Memory.lean ====
section
/-! SUPPORT. Memory: reading after writing, the canonical form, and what a checked access does
(20_memory.md R73, R75). -/

namespace Sys2Proof.Machine

/-! ## Lookup after the list operations -/

theorem Memory.lookup_erase (m : Memory) (a b : Nat) :
    Memory.lookup (Memory.erase m a) b = if b = a then none else Memory.lookup m b := by
  induction m with
  | nil => simp [Memory.erase, Memory.lookup]
  | cons cell rest ih =>
    obtain ⟨c, v⟩ := cell
    by_cases hac : a = c
    · subst hac
      by_cases hba : b = a <;> simp_all [Memory.erase, Memory.lookup]
    · by_cases hbc : b = c
      · subst hbc
        simp [Memory.erase, Memory.lookup, hac, Ne.symm hac]
      · by_cases hba : b = a <;> simp_all [Memory.erase, Memory.lookup]

theorem Memory.lookup_insert (m : Memory) (a b : Nat) (v : Byte) :
    Memory.lookup (Memory.insert m a v) b = if b = a then some v else Memory.lookup m b := by
  induction m with
  | nil => simp [Memory.insert, Memory.lookup]
  | cons cell rest ih =>
    obtain ⟨c, u⟩ := cell
    by_cases hlt : a < c
    · simp [Memory.insert, Memory.lookup, hlt]
    · by_cases hac : a = c
      · subst hac
        by_cases hba : b = a <;> simp [Memory.insert, Memory.lookup, hba]
      · by_cases hbc : b = c
        · subst hbc
          simp [Memory.insert, Memory.lookup, hlt, hac, Ne.symm hac]
        · simp [Memory.insert, Memory.lookup, hlt, hac, hbc, ih]

/-! ## Read after write -/

/-- Reading after one write: the byte written there, and everything else as before. -/
theorem Memory.read_write (m : Memory) (a b : Nat) (v : Byte) :
    Memory.read (Memory.write m a v) b = if b = a then v else Memory.read m b := by
  unfold Memory.write Memory.read
  split
  · rename_i hv
    by_cases hba : b = a <;> simp [Memory.lookup_erase, hba, hv]
  · by_cases hba : b = a <;> simp [Memory.lookup_insert, hba]

/-- Reading after several writes: inside the range the byte written there, outside it as before. -/
theorem Memory.read_writeAll (m : Memory) (a b : Nat) (bytes : List Byte) :
    Memory.read (Memory.writeAll m a bytes) b =
      if a ≤ b ∧ b < a + bytes.length then bytes.getD (b - a) 0 else Memory.read m b := by
  induction bytes generalizing m a with
  | nil =>
    have : ¬ (a ≤ b ∧ b < a) := by omega
    simp [Memory.writeAll, this]
  | cons v rest ih =>
    rw [Memory.writeAll, ih, Memory.read_write]
    simp only [List.length_cons]
    by_cases hba : b = a
    · subst hba
      simp
    · by_cases hin : a + 1 ≤ b ∧ b < a + 1 + rest.length
      · have h2 : a ≤ b ∧ b < a + (rest.length + 1) := by omega
        have h3 : b - a = (b - (a + 1)) + 1 := by omega
        simp [hin, h2, h3]
      · have h2 : ¬ (a ≤ b ∧ b < a + (rest.length + 1)) := by omega
        rw [if_neg hin, if_neg hba, if_neg h2]

/-- Outside the written range nothing changes. -/
theorem Memory.read_writeAll_outside (m : Memory) (a b : Nat) (bytes : List Byte)
    (h : b < a ∨ a + bytes.length ≤ b) :
    Memory.read (Memory.writeAll m a bytes) b = Memory.read m b := by
  rw [Memory.read_writeAll, if_neg (by omega)]

/-- Inside the written range the k-th byte is read at the k-th address. -/
theorem Memory.read_writeAll_inside (m : Memory) (a k : Nat) (bytes : List Byte) (h : k < bytes.length) :
    Memory.read (Memory.writeAll m a bytes) (a + k) = bytes[k] := by
  rw [Memory.read_writeAll, if_pos (by omega)]
  simp [h]

/-! ## The canonical form -/

/-- The canonical form, said of the cells of the list. -/
theorem Memory.wf_iff (m : Memory) :
    Memory.wf m = true ↔
      m.Pairwise (fun p q => p.1 < q.1) ∧ ∀ p ∈ m, p.1 ≤ 0xFFF ∧ p.2 ≠ unlistedByte p.1 := by
  induction m with
  | nil => simp [Memory.wf]
  | cons cell rest ih =>
    obtain ⟨a, v⟩ := cell
    simp only [Memory.wf, Bool.and_eq_true, decide_eq_true_eq, List.all_eq_true, ih, List.pairwise_cons,
      List.mem_cons, forall_eq_or_imp]
    tauto

theorem Memory.mem_erase (m : Memory) (a : Nat) (p : Host.Cell) (h : p ∈ Memory.erase m a) : p ∈ m := by
  induction m with
  | nil => simp [Memory.erase] at h
  | cons cell rest ih =>
    obtain ⟨c, v⟩ := cell
    unfold Memory.erase at h
    split at h
    · exact List.mem_cons_of_mem _ (ih h)
    · rcases List.mem_cons.1 h with h | h
      · exact h ▸ List.mem_cons_self
      · exact List.mem_cons_of_mem _ (ih h)

theorem Memory.mem_insert (m : Memory) (a : Nat) (v : Byte) (p : Host.Cell) (h : p ∈ Memory.insert m a v) :
    p = (a, v) ∨ p ∈ m := by
  induction m with
  | nil => simpa [Memory.insert] using h
  | cons cell rest ih =>
    obtain ⟨c, u⟩ := cell
    unfold Memory.insert at h
    split at h
    · simpa using h
    · split at h
      · rcases List.mem_cons.1 h with h | h
        · exact .inl h
        · exact .inr (List.mem_cons_of_mem _ h)
      · rcases List.mem_cons.1 h with h | h
        · exact .inr (h ▸ List.mem_cons_self)
        · rcases ih h with h | h
          · exact .inl h
          · exact .inr (List.mem_cons_of_mem _ h)

theorem Memory.sorted_erase (m : Memory) (a : Nat) (h : m.Pairwise (fun p q => p.1 < q.1)) :
    (Memory.erase m a).Pairwise (fun p q => p.1 < q.1) := by
  induction m with
  | nil => simp [Memory.erase]
  | cons cell rest ih =>
    obtain ⟨c, v⟩ := cell
    rw [List.pairwise_cons] at h
    unfold Memory.erase
    split
    · exact ih h.2
    · exact List.pairwise_cons.2 ⟨fun q hq => h.1 q (Memory.mem_erase _ _ _ hq), ih h.2⟩

theorem Memory.sorted_insert (m : Memory) (a : Nat) (v : Byte) (h : m.Pairwise (fun p q => p.1 < q.1)) :
    (Memory.insert m a v).Pairwise (fun p q => p.1 < q.1) := by
  induction m with
  | nil => simp [Memory.insert]
  | cons cell rest ih =>
    obtain ⟨c, u⟩ := cell
    have hc := List.pairwise_cons.1 h
    unfold Memory.insert
    split
    · rename_i hac
      refine List.pairwise_cons.2 ⟨fun q hq => ?_, h⟩
      rcases List.mem_cons.1 hq with hq | hq
      · subst hq
        exact hac
      · have h1 := hc.1 q hq
        simp only at h1
        simp only
        omega
    · split
      · rename_i hac
        subst hac
        exact List.pairwise_cons.2 ⟨hc.1, hc.2⟩
      · refine List.pairwise_cons.2 ⟨fun q hq => ?_, ih hc.2⟩
        rcases Memory.mem_insert _ _ _ _ hq with hq | hq
        · subst hq
          simp only
          omega
        · exact hc.1 q hq

/-- A write to an address that exists keeps the canonical form. -/
theorem Memory.wf_write (m : Memory) (a : Nat) (v : Byte) (h : Memory.wf m = true) (ha : a ≤ 0xFFF) :
    Memory.wf (Memory.write m a v) = true := by
  rw [Memory.wf_iff] at h ⊢
  unfold Memory.write
  split
  · exact ⟨Memory.sorted_erase m a h.1, fun p hp => h.2 p (Memory.mem_erase m a p hp)⟩
  · rename_i hv
    refine ⟨Memory.sorted_insert m a v h.1, fun p hp => ?_⟩
    rcases Memory.mem_insert m a v p hp with hp | hp
    · subst hp
      exact ⟨ha, hv⟩
    · exact h.2 p hp

/-- Writes to addresses that exist keep the canonical form. -/
theorem Memory.wf_writeAll (m : Memory) (a : Nat) (bytes : List Byte) (h : Memory.wf m = true)
    (ha : InRange a bytes.length) : Memory.wf (Memory.writeAll m a bytes) = true := by
  induction bytes generalizing m a with
  | nil => exact h
  | cons v rest ih =>
    simp only [InRange, List.length_cons] at ha
    refine ih _ _ (Memory.wf_write m a v h (by omega)) ?_
    simp only [InRange]
    omega

/-- A memory in canonical form has its first cell's address below all others. -/
theorem Memory.lookup_eq_none_of_lt (m : Memory) (a : Nat) (h : ∀ p ∈ m, a < p.1) : Memory.lookup m a = none := by
  induction m with
  | nil => rfl
  | cons cell rest ih =>
    obtain ⟨c, v⟩ := cell
    have hc : a < c := h (c, v) List.mem_cons_self
    rw [Memory.lookup, if_neg (by omega)]
    exact ih fun p hp => h p (List.mem_cons_of_mem _ hp)

/-- Equal memories are equal data: two memories in canonical form that read the same are the same list. -/
theorem Memory.eq_of_read_eq (m n : Memory) (hm : Memory.wf m = true) (hn : Memory.wf n = true)
    (h : ∀ a, Memory.read m a = Memory.read n a) : m = n := by
  induction m generalizing n with
  | nil =>
    cases n with
    | nil => rfl
    | cons cell rest =>
      obtain ⟨c, v⟩ := cell
      have h2 := ((Memory.wf_iff _).1 hn).2 (c, v) List.mem_cons_self
      have h3 := h c
      simp [Memory.read, Memory.lookup] at h3
      exact absurd h3.symm h2.2
  | cons cell rest ih =>
    obtain ⟨a, u⟩ := cell
    have wm := (Memory.wf_iff _).1 hm
    have am := List.pairwise_cons.1 wm.1
    have um := wm.2 (a, u) List.mem_cons_self
    cases n with
    | nil =>
      have h3 := h a
      simp [Memory.read, Memory.lookup] at h3
      exact absurd h3 um.2
    | cons cell' rest' =>
      obtain ⟨b, w⟩ := cell'
      have wn := (Memory.wf_iff _).1 hn
      have bn := List.pairwise_cons.1 wn.1
      have un := wn.2 (b, w) List.mem_cons_self
      have hab : a = b := by
        rcases Nat.lt_trichotomy a b with hlt | heq | hgt
        · have h3 := h a
          have h4 : Memory.lookup ((b, w) :: rest') a = none :=
            Memory.lookup_eq_none_of_lt _ _ fun p hp => by
              rcases List.mem_cons.1 hp with hp | hp
              · subst hp
                exact hlt
              · exact Nat.lt_trans hlt (bn.1 p hp)
          simp [Memory.read, h4] at h3
          simp [Memory.lookup] at h3
          exact absurd h3 um.2
        · exact heq
        · have h3 := h b
          have h4 : Memory.lookup ((a, u) :: rest) b = none :=
            Memory.lookup_eq_none_of_lt _ _ fun p hp => by
              rcases List.mem_cons.1 hp with hp | hp
              · subst hp
                exact hgt
              · exact Nat.lt_trans hgt (am.1 p hp)
          simp [Memory.read, h4] at h3
          simp [Memory.lookup] at h3
          exact absurd h3.symm un.2
      subst hab
      have huw : u = w := by simpa [Memory.read, Memory.lookup] using h a
      subst huw
      have hr : rest = rest' := by
        refine ih rest' ((Memory.wf_iff _).2 ⟨am.2, fun p hp => wm.2 p (List.mem_cons_of_mem _ hp)⟩)
          ((Memory.wf_iff _).2 ⟨bn.2, fun p hp => wn.2 p (List.mem_cons_of_mem _ hp)⟩) fun c => ?_
        by_cases hc : c = a
        · subst hc
          simp [Memory.read, Memory.lookup_eq_none_of_lt rest c am.1, Memory.lookup_eq_none_of_lt rest' c bn.1]
        · simpa [Memory.read, Memory.lookup, hc] using h c
      rw [hr]

/-! ## Checked accesses -/

/-- All a checked read does. -/
theorem Memory.load_cases (m : Memory) (a n : Nat) :
    (InRange a n ∧ Memory.load m a n = some ((List.range n).map fun k => Memory.read m (a + k))) ∨
      (¬ InRange a n ∧ Memory.load m a n = none) := by
  by_cases h : InRange a n
  · exact .inl ⟨h, if_pos h⟩
  · exact .inr ⟨h, if_neg h⟩

/-- All a checked write does. -/
theorem Memory.store_cases (m : Memory) (a : Nat) (bytes : List Byte) :
    (InRange a bytes.length ∧ Memory.store m a bytes = some (Memory.writeAll m a bytes)) ∨
      (¬ InRange a bytes.length ∧ Memory.store m a bytes = none) := by
  by_cases h : InRange a bytes.length
  · exact .inl ⟨h, if_pos h⟩
  · exact .inr ⟨h, if_neg h⟩

/-- A checked write keeps the canonical form. -/
theorem Memory.wf_store (m t : Memory) (a : Nat) (bytes : List Byte) (h : Memory.wf m = true)
    (hs : Memory.store m a bytes = some t) : Memory.wf t = true := by
  rcases Memory.store_cases m a bytes with ⟨hr, he⟩ | ⟨-, he⟩
  · rw [he] at hs
    exact Option.some.inj hs ▸ Memory.wf_writeAll m a bytes h hr
  · simp [he] at hs

end Sys2Proof.Machine
end

