-- ==== Sys2Proof/Laws/Operands.lean ====
section
/-! SUPPORT. The operand forms and the flags: the size and the value of each. -/

namespace Sys2Proof.Machine

/-! ## Immediates and addresses -/

@[simp] theorem addrOperand_toNat (nnn : Addr12) : (addrOperand nnn).toNat = nnn.toNat := by
  simp [addrOperand]
  omega

@[simp] theorem byteOperand_toNat (b : Byte) : (byteOperand b).toNat = b.toNat := by
  simp [byteOperand]
  omega

/-- The target of Bnnn never wraps (41_flow.md R167). -/
theorem offsetTarget_toNat (nnn : Addr12) (s : State) :
    (offsetTarget nnn s).toNat = (s.getV 0).toNat + nnn.toNat := by
  have h1 := (s.getV 0).isLt
  have h2 := nnn.isLt
  simp only [offsetTarget, BitVec.toNat_add, byteOperand_toNat, addrOperand_toNat]
  omega

/-! ## Bytes that name one of sixteen things -/

/-- All a hexadecimal operand can be. -/
theorem hexOperand_cases (b : Byte) :
    (∃ h : b.toNat < 16, hexOperand b = some ⟨b.toNat, h⟩) ∨ (0xF < b.toNat ∧ hexOperand b = none) := by
  by_cases h : b.toNat < 16
  · exact .inl ⟨h, by simp [hexOperand, h]⟩
  · exact .inr ⟨by omega, by simp [hexOperand, h]⟩

/-! ## The font (00_scope.md R9, 10_state.md R47) -/

/-- The constraint on FONT_BASE: the whole table lies in the reserved region. -/
theorem fontBase_le : fontBase + 16 * fontStride ≤ Config.progStart := by
  have := Config.fontBase.isLt
  simp only [fontBase, fontStride, Config.fontStride, Config.progStart]
  omega

theorem glyphAddress_toNat (d : Fin 16) : (glyphAddress d).toNat = fontBase + 5 * d.val := by
  have h := fontBase_le
  have hd := d.isLt
  simp only [fontStride, Config.fontStride, Config.progStart] at h
  simp only [glyphAddress, fontStride, Config.fontStride, BitVec.toNat_ofNat]
  omega

/-- Program memory is 0x00 where nothing is listed. -/
theorem unlistedByte_program (a : Nat) (h : Config.progStart ≤ a) : unlistedByte a = 0 := by
  simp only [unlistedByte, h, if_true]

/-- Row k of the glyph of digit d stands at FONT_BASE + 5 * d + k. -/
theorem unlistedByte_glyph (d : Fin 16) (k : Fin 5) :
    unlistedByte (fontBase + 5 * d.val + k.val) = (Config.glyph d)[k] := by
  have h := fontBase_le
  have hd := d.isLt
  have hk := k.isLt
  simp only [fontStride, Config.fontStride, Config.progStart] at h
  have h1 : ¬ Config.progStart ≤ fontBase + 5 * d.val + k.val := by
    simp only [Config.progStart]
    omega
  have h2 : fontBase ≤ fontBase + 5 * d.val + k.val ∧
      fontBase + 5 * d.val + k.val < fontBase + 16 * fontStride := by
    simp only [fontStride, Config.fontStride]
    omega
  have h3 : fontBase + 5 * d.val + k.val - fontBase = 5 * d.val + k.val := by omega
  have h4 : (5 * d.val + k.val) / 5 = d.val := by omega
  have h5 : (5 * d.val + k.val) % 5 = k.val := by omega
  simp only [unlistedByte, h1, h2, and_self, if_true, if_false, h3, fontByte, h4, h5, Fin.ofNat_val_eq_self]
  rfl

/-- Below 0x200 and outside the font an unlisted byte is 0x00. -/
theorem unlistedByte_outside (a : Nat) (h : a < fontBase ∨ fontBase + 16 * fontStride ≤ a) : unlistedByte a = 0 := by
  have h1 : ¬ (fontBase ≤ a ∧ a < fontBase + 16 * fontStride) := by omega
  simp only [unlistedByte, h1, if_false, ite_self]

/-! ## The shifted register (00_scope.md R9) -/

/-- All the shifted register can be. -/
theorem shiftOperand_cases (x y : Reg) (s : State) :
    (s.shiftSource = .vx ∧ shiftOperand x y s = s.getV x) ∨ (s.shiftSource = .vy ∧ shiftOperand x y s = s.getV y) := by
  cases h : s.shiftSource <;> simp [shiftOperand, h]

/-! ## Registers in order, decimal digits -/

@[simp] theorem lowRegisters_length (x : Reg) (s : State) : (lowRegisters x s).length = x.val + 1 := by
  have := x.isLt
  simp [lowRegisters]

theorem lowRegisters_get (x r : Reg) (s : State) (h : r ≤ x) :
    (lowRegisters x s)[r.val]'(by rw [lowRegisters_length]; exact Nat.lt_succ_of_le h) = s.getV r := by
  simp [lowRegisters, State.getV]

@[simp] theorem decimalDigits_length (b : Byte) : (decimalDigits b).length = 3 := rfl

/-! ## Flags (10_state.md R35) -/

theorem flagByte_cases (cond : Bool) : flagByte cond = 0 ∨ flagByte cond = 1 := by
  cases cond <;> simp [flagByte]

@[simp] theorem flagByte_true : flagByte true = 1 := rfl

@[simp] theorem flagByte_false : flagByte false = 0 := rfl

/-- The carry is bit 8 of the exact sum. -/
theorem carryFlag_eq (a b : Byte) : carryFlag a b = if a.toNat + b.toNat > 0xFF then 1 else 0 := by
  by_cases h : a.toNat + b.toNat > 0xFF <;> simp [carryFlag, flagByte, h]

theorem noBorrowFlag_eq (a b : Byte) : noBorrowFlag a b = if a.toNat ≥ b.toNat then 1 else 0 := by
  by_cases h : a.toNat ≥ b.toNat <;> simp [noBorrowFlag, flagByte, h]

end Sys2Proof.Machine
end

