-- ==== Sys2Proof/Laws/State.lean ====
section
/-! SUPPORT. One lemma per field per update of State, so that no proof unfolds a record update; reading a
register and a latch through every update; and what the push and the pop do. -/

namespace Sys2Proof.Machine

/-! ## Fields after updates -/

@[simp] theorem State.setV_mem (s : State) (x : Reg) (b : Byte) : (s.setV x b).mem = s.mem := rfl
@[simp] theorem State.setV_v (s : State) (x : Reg) (b : Byte) : (s.setV x b).v = s.v.set x b := rfl
@[simp] theorem State.setV_i (s : State) (x : Reg) (b : Byte) : (s.setV x b).i = s.i := rfl
@[simp] theorem State.setV_pc (s : State) (x : Reg) (b : Byte) : (s.setV x b).pc = s.pc := rfl
@[simp] theorem State.setV_stack (s : State) (x : Reg) (b : Byte) : (s.setV x b).stack = s.stack := rfl
@[simp] theorem State.setV_sp (s : State) (x : Reg) (b : Byte) : (s.setV x b).sp = s.sp := rfl
@[simp] theorem State.setV_dt (s : State) (x : Reg) (b : Byte) : (s.setV x b).dt = s.dt := rfl
@[simp] theorem State.setV_st (s : State) (x : Reg) (b : Byte) : (s.setV x b).st = s.st := rfl
@[simp] theorem State.setV_keys (s : State) (x : Reg) (b : Byte) : (s.setV x b).keys = s.keys := rfl
@[simp] theorem State.setV_kw (s : State) (x : Reg) (b : Byte) : (s.setV x b).kw = s.kw := rfl
@[simp] theorem State.setV_fb (s : State) (x : Reg) (b : Byte) : (s.setV x b).fb = s.fb := rfl
@[simp] theorem State.setV_redraw (s : State) (x : Reg) (b : Byte) : (s.setV x b).redraw = s.redraw := rfl
@[simp] theorem State.setV_shiftSource (s : State) (x : Reg) (b : Byte) : (s.setV x b).shiftSource = s.shiftSource := rfl
@[simp] theorem State.setV_draws (s : State) (x : Reg) (b : Byte) : (s.setV x b).draws = s.draws := rfl

@[simp] theorem State.setVF_mem (s : State) (b : Byte) : (s.setVF b).mem = s.mem := rfl
@[simp] theorem State.setVF_v (s : State) (b : Byte) : (s.setVF b).v = s.v.set (0xF : Reg) b := rfl
@[simp] theorem State.setVF_i (s : State) (b : Byte) : (s.setVF b).i = s.i := rfl
@[simp] theorem State.setVF_pc (s : State) (b : Byte) : (s.setVF b).pc = s.pc := rfl
@[simp] theorem State.setVF_stack (s : State) (b : Byte) : (s.setVF b).stack = s.stack := rfl
@[simp] theorem State.setVF_sp (s : State) (b : Byte) : (s.setVF b).sp = s.sp := rfl
@[simp] theorem State.setVF_dt (s : State) (b : Byte) : (s.setVF b).dt = s.dt := rfl
@[simp] theorem State.setVF_st (s : State) (b : Byte) : (s.setVF b).st = s.st := rfl
@[simp] theorem State.setVF_keys (s : State) (b : Byte) : (s.setVF b).keys = s.keys := rfl
@[simp] theorem State.setVF_kw (s : State) (b : Byte) : (s.setVF b).kw = s.kw := rfl
@[simp] theorem State.setVF_fb (s : State) (b : Byte) : (s.setVF b).fb = s.fb := rfl
@[simp] theorem State.setVF_redraw (s : State) (b : Byte) : (s.setVF b).redraw = s.redraw := rfl
@[simp] theorem State.setVF_shiftSource (s : State) (b : Byte) : (s.setVF b).shiftSource = s.shiftSource := rfl
@[simp] theorem State.setVF_draws (s : State) (b : Byte) : (s.setVF b).draws = s.draws := rfl

@[simp] theorem State.setLow_mem (s : State) (bytes : List Byte) : (s.setLow bytes).mem = s.mem := rfl
@[simp] theorem State.setLow_v (s : State) (bytes : List Byte) : (s.setLow bytes).v = Vector.ofFn fun r => bytes.getD r.val s.v[r] := rfl
@[simp] theorem State.setLow_i (s : State) (bytes : List Byte) : (s.setLow bytes).i = s.i := rfl
@[simp] theorem State.setLow_pc (s : State) (bytes : List Byte) : (s.setLow bytes).pc = s.pc := rfl
@[simp] theorem State.setLow_stack (s : State) (bytes : List Byte) : (s.setLow bytes).stack = s.stack := rfl
@[simp] theorem State.setLow_sp (s : State) (bytes : List Byte) : (s.setLow bytes).sp = s.sp := rfl
@[simp] theorem State.setLow_dt (s : State) (bytes : List Byte) : (s.setLow bytes).dt = s.dt := rfl
@[simp] theorem State.setLow_st (s : State) (bytes : List Byte) : (s.setLow bytes).st = s.st := rfl
@[simp] theorem State.setLow_keys (s : State) (bytes : List Byte) : (s.setLow bytes).keys = s.keys := rfl
@[simp] theorem State.setLow_kw (s : State) (bytes : List Byte) : (s.setLow bytes).kw = s.kw := rfl
@[simp] theorem State.setLow_fb (s : State) (bytes : List Byte) : (s.setLow bytes).fb = s.fb := rfl
@[simp] theorem State.setLow_redraw (s : State) (bytes : List Byte) : (s.setLow bytes).redraw = s.redraw := rfl
@[simp] theorem State.setLow_shiftSource (s : State) (bytes : List Byte) : (s.setLow bytes).shiftSource = s.shiftSource := rfl
@[simp] theorem State.setLow_draws (s : State) (bytes : List Byte) : (s.setLow bytes).draws = s.draws := rfl

@[simp] theorem State.setI_mem (s : State) (a : Word) : (s.setI a).mem = s.mem := rfl
@[simp] theorem State.setI_v (s : State) (a : Word) : (s.setI a).v = s.v := rfl
@[simp] theorem State.setI_i (s : State) (a : Word) : (s.setI a).i = a := rfl
@[simp] theorem State.setI_pc (s : State) (a : Word) : (s.setI a).pc = s.pc := rfl
@[simp] theorem State.setI_stack (s : State) (a : Word) : (s.setI a).stack = s.stack := rfl
@[simp] theorem State.setI_sp (s : State) (a : Word) : (s.setI a).sp = s.sp := rfl
@[simp] theorem State.setI_dt (s : State) (a : Word) : (s.setI a).dt = s.dt := rfl
@[simp] theorem State.setI_st (s : State) (a : Word) : (s.setI a).st = s.st := rfl
@[simp] theorem State.setI_keys (s : State) (a : Word) : (s.setI a).keys = s.keys := rfl
@[simp] theorem State.setI_kw (s : State) (a : Word) : (s.setI a).kw = s.kw := rfl
@[simp] theorem State.setI_fb (s : State) (a : Word) : (s.setI a).fb = s.fb := rfl
@[simp] theorem State.setI_redraw (s : State) (a : Word) : (s.setI a).redraw = s.redraw := rfl
@[simp] theorem State.setI_shiftSource (s : State) (a : Word) : (s.setI a).shiftSource = s.shiftSource := rfl
@[simp] theorem State.setI_draws (s : State) (a : Word) : (s.setI a).draws = s.draws := rfl

@[simp] theorem State.setPc_mem (s : State) (target : Word) : (s.setPc target).mem = s.mem := rfl
@[simp] theorem State.setPc_v (s : State) (target : Word) : (s.setPc target).v = s.v := rfl
@[simp] theorem State.setPc_i (s : State) (target : Word) : (s.setPc target).i = s.i := rfl
@[simp] theorem State.setPc_pc (s : State) (target : Word) : (s.setPc target).pc = target := rfl
@[simp] theorem State.setPc_stack (s : State) (target : Word) : (s.setPc target).stack = s.stack := rfl
@[simp] theorem State.setPc_sp (s : State) (target : Word) : (s.setPc target).sp = s.sp := rfl
@[simp] theorem State.setPc_dt (s : State) (target : Word) : (s.setPc target).dt = s.dt := rfl
@[simp] theorem State.setPc_st (s : State) (target : Word) : (s.setPc target).st = s.st := rfl
@[simp] theorem State.setPc_keys (s : State) (target : Word) : (s.setPc target).keys = s.keys := rfl
@[simp] theorem State.setPc_kw (s : State) (target : Word) : (s.setPc target).kw = s.kw := rfl
@[simp] theorem State.setPc_fb (s : State) (target : Word) : (s.setPc target).fb = s.fb := rfl
@[simp] theorem State.setPc_redraw (s : State) (target : Word) : (s.setPc target).redraw = s.redraw := rfl
@[simp] theorem State.setPc_shiftSource (s : State) (target : Word) : (s.setPc target).shiftSource = s.shiftSource := rfl
@[simp] theorem State.setPc_draws (s : State) (target : Word) : (s.setPc target).draws = s.draws := rfl

@[simp] theorem State.setDt_mem (s : State) (b : Byte) : (s.setDt b).mem = s.mem := rfl
@[simp] theorem State.setDt_v (s : State) (b : Byte) : (s.setDt b).v = s.v := rfl
@[simp] theorem State.setDt_i (s : State) (b : Byte) : (s.setDt b).i = s.i := rfl
@[simp] theorem State.setDt_pc (s : State) (b : Byte) : (s.setDt b).pc = s.pc := rfl
@[simp] theorem State.setDt_stack (s : State) (b : Byte) : (s.setDt b).stack = s.stack := rfl
@[simp] theorem State.setDt_sp (s : State) (b : Byte) : (s.setDt b).sp = s.sp := rfl
@[simp] theorem State.setDt_dt (s : State) (b : Byte) : (s.setDt b).dt = b := rfl
@[simp] theorem State.setDt_st (s : State) (b : Byte) : (s.setDt b).st = s.st := rfl
@[simp] theorem State.setDt_keys (s : State) (b : Byte) : (s.setDt b).keys = s.keys := rfl
@[simp] theorem State.setDt_kw (s : State) (b : Byte) : (s.setDt b).kw = s.kw := rfl
@[simp] theorem State.setDt_fb (s : State) (b : Byte) : (s.setDt b).fb = s.fb := rfl
@[simp] theorem State.setDt_redraw (s : State) (b : Byte) : (s.setDt b).redraw = s.redraw := rfl
@[simp] theorem State.setDt_shiftSource (s : State) (b : Byte) : (s.setDt b).shiftSource = s.shiftSource := rfl
@[simp] theorem State.setDt_draws (s : State) (b : Byte) : (s.setDt b).draws = s.draws := rfl

@[simp] theorem State.setSt_mem (s : State) (b : Byte) : (s.setSt b).mem = s.mem := rfl
@[simp] theorem State.setSt_v (s : State) (b : Byte) : (s.setSt b).v = s.v := rfl
@[simp] theorem State.setSt_i (s : State) (b : Byte) : (s.setSt b).i = s.i := rfl
@[simp] theorem State.setSt_pc (s : State) (b : Byte) : (s.setSt b).pc = s.pc := rfl
@[simp] theorem State.setSt_stack (s : State) (b : Byte) : (s.setSt b).stack = s.stack := rfl
@[simp] theorem State.setSt_sp (s : State) (b : Byte) : (s.setSt b).sp = s.sp := rfl
@[simp] theorem State.setSt_dt (s : State) (b : Byte) : (s.setSt b).dt = s.dt := rfl
@[simp] theorem State.setSt_st (s : State) (b : Byte) : (s.setSt b).st = b := rfl
@[simp] theorem State.setSt_keys (s : State) (b : Byte) : (s.setSt b).keys = s.keys := rfl
@[simp] theorem State.setSt_kw (s : State) (b : Byte) : (s.setSt b).kw = s.kw := rfl
@[simp] theorem State.setSt_fb (s : State) (b : Byte) : (s.setSt b).fb = s.fb := rfl
@[simp] theorem State.setSt_redraw (s : State) (b : Byte) : (s.setSt b).redraw = s.redraw := rfl
@[simp] theorem State.setSt_shiftSource (s : State) (b : Byte) : (s.setSt b).shiftSource = s.shiftSource := rfl
@[simp] theorem State.setSt_draws (s : State) (b : Byte) : (s.setSt b).draws = s.draws := rfl

@[simp] theorem State.setKeyLatch_mem (s : State) (k : Key) (p : Bool) : (s.setKeyLatch k p).mem = s.mem := rfl
@[simp] theorem State.setKeyLatch_v (s : State) (k : Key) (p : Bool) : (s.setKeyLatch k p).v = s.v := rfl
@[simp] theorem State.setKeyLatch_i (s : State) (k : Key) (p : Bool) : (s.setKeyLatch k p).i = s.i := rfl
@[simp] theorem State.setKeyLatch_pc (s : State) (k : Key) (p : Bool) : (s.setKeyLatch k p).pc = s.pc := rfl
@[simp] theorem State.setKeyLatch_stack (s : State) (k : Key) (p : Bool) : (s.setKeyLatch k p).stack = s.stack := rfl
@[simp] theorem State.setKeyLatch_sp (s : State) (k : Key) (p : Bool) : (s.setKeyLatch k p).sp = s.sp := rfl
@[simp] theorem State.setKeyLatch_dt (s : State) (k : Key) (p : Bool) : (s.setKeyLatch k p).dt = s.dt := rfl
@[simp] theorem State.setKeyLatch_st (s : State) (k : Key) (p : Bool) : (s.setKeyLatch k p).st = s.st := rfl
@[simp] theorem State.setKeyLatch_keys (s : State) (k : Key) (p : Bool) : (s.setKeyLatch k p).keys = s.keys.set k p := rfl
@[simp] theorem State.setKeyLatch_kw (s : State) (k : Key) (p : Bool) : (s.setKeyLatch k p).kw = s.kw := rfl
@[simp] theorem State.setKeyLatch_fb (s : State) (k : Key) (p : Bool) : (s.setKeyLatch k p).fb = s.fb := rfl
@[simp] theorem State.setKeyLatch_redraw (s : State) (k : Key) (p : Bool) : (s.setKeyLatch k p).redraw = s.redraw := rfl
@[simp] theorem State.setKeyLatch_shiftSource (s : State) (k : Key) (p : Bool) : (s.setKeyLatch k p).shiftSource = s.shiftSource := rfl
@[simp] theorem State.setKeyLatch_draws (s : State) (k : Key) (p : Bool) : (s.setKeyLatch k p).draws = s.draws := rfl

@[simp] theorem State.setKw_mem (s : State) (w : KeyWait) : (s.setKw w).mem = s.mem := rfl
@[simp] theorem State.setKw_v (s : State) (w : KeyWait) : (s.setKw w).v = s.v := rfl
@[simp] theorem State.setKw_i (s : State) (w : KeyWait) : (s.setKw w).i = s.i := rfl
@[simp] theorem State.setKw_pc (s : State) (w : KeyWait) : (s.setKw w).pc = s.pc := rfl
@[simp] theorem State.setKw_stack (s : State) (w : KeyWait) : (s.setKw w).stack = s.stack := rfl
@[simp] theorem State.setKw_sp (s : State) (w : KeyWait) : (s.setKw w).sp = s.sp := rfl
@[simp] theorem State.setKw_dt (s : State) (w : KeyWait) : (s.setKw w).dt = s.dt := rfl
@[simp] theorem State.setKw_st (s : State) (w : KeyWait) : (s.setKw w).st = s.st := rfl
@[simp] theorem State.setKw_keys (s : State) (w : KeyWait) : (s.setKw w).keys = s.keys := rfl
@[simp] theorem State.setKw_kw (s : State) (w : KeyWait) : (s.setKw w).kw = w := rfl
@[simp] theorem State.setKw_fb (s : State) (w : KeyWait) : (s.setKw w).fb = s.fb := rfl
@[simp] theorem State.setKw_redraw (s : State) (w : KeyWait) : (s.setKw w).redraw = s.redraw := rfl
@[simp] theorem State.setKw_shiftSource (s : State) (w : KeyWait) : (s.setKw w).shiftSource = s.shiftSource := rfl
@[simp] theorem State.setKw_draws (s : State) (w : KeyWait) : (s.setKw w).draws = s.draws := rfl

@[simp] theorem State.setFb_mem (s : State) (f : Frame) : (s.setFb f).mem = s.mem := rfl
@[simp] theorem State.setFb_v (s : State) (f : Frame) : (s.setFb f).v = s.v := rfl
@[simp] theorem State.setFb_i (s : State) (f : Frame) : (s.setFb f).i = s.i := rfl
@[simp] theorem State.setFb_pc (s : State) (f : Frame) : (s.setFb f).pc = s.pc := rfl
@[simp] theorem State.setFb_stack (s : State) (f : Frame) : (s.setFb f).stack = s.stack := rfl
@[simp] theorem State.setFb_sp (s : State) (f : Frame) : (s.setFb f).sp = s.sp := rfl
@[simp] theorem State.setFb_dt (s : State) (f : Frame) : (s.setFb f).dt = s.dt := rfl
@[simp] theorem State.setFb_st (s : State) (f : Frame) : (s.setFb f).st = s.st := rfl
@[simp] theorem State.setFb_keys (s : State) (f : Frame) : (s.setFb f).keys = s.keys := rfl
@[simp] theorem State.setFb_kw (s : State) (f : Frame) : (s.setFb f).kw = s.kw := rfl
@[simp] theorem State.setFb_fb (s : State) (f : Frame) : (s.setFb f).fb = f := rfl
@[simp] theorem State.setFb_redraw (s : State) (f : Frame) : (s.setFb f).redraw = s.redraw := rfl
@[simp] theorem State.setFb_shiftSource (s : State) (f : Frame) : (s.setFb f).shiftSource = s.shiftSource := rfl
@[simp] theorem State.setFb_draws (s : State) (f : Frame) : (s.setFb f).draws = s.draws := rfl

@[simp] theorem State.setRedraw_mem (s : State) (b : Bool) : (s.setRedraw b).mem = s.mem := rfl
@[simp] theorem State.setRedraw_v (s : State) (b : Bool) : (s.setRedraw b).v = s.v := rfl
@[simp] theorem State.setRedraw_i (s : State) (b : Bool) : (s.setRedraw b).i = s.i := rfl
@[simp] theorem State.setRedraw_pc (s : State) (b : Bool) : (s.setRedraw b).pc = s.pc := rfl
@[simp] theorem State.setRedraw_stack (s : State) (b : Bool) : (s.setRedraw b).stack = s.stack := rfl
@[simp] theorem State.setRedraw_sp (s : State) (b : Bool) : (s.setRedraw b).sp = s.sp := rfl
@[simp] theorem State.setRedraw_dt (s : State) (b : Bool) : (s.setRedraw b).dt = s.dt := rfl
@[simp] theorem State.setRedraw_st (s : State) (b : Bool) : (s.setRedraw b).st = s.st := rfl
@[simp] theorem State.setRedraw_keys (s : State) (b : Bool) : (s.setRedraw b).keys = s.keys := rfl
@[simp] theorem State.setRedraw_kw (s : State) (b : Bool) : (s.setRedraw b).kw = s.kw := rfl
@[simp] theorem State.setRedraw_fb (s : State) (b : Bool) : (s.setRedraw b).fb = s.fb := rfl
@[simp] theorem State.setRedraw_redraw (s : State) (b : Bool) : (s.setRedraw b).redraw = b := rfl
@[simp] theorem State.setRedraw_shiftSource (s : State) (b : Bool) : (s.setRedraw b).shiftSource = s.shiftSource := rfl
@[simp] theorem State.setRedraw_draws (s : State) (b : Bool) : (s.setRedraw b).draws = s.draws := rfl

@[simp] theorem State.setMem_mem (s : State) (m : Memory) : (s.setMem m).mem = m := rfl
@[simp] theorem State.setMem_v (s : State) (m : Memory) : (s.setMem m).v = s.v := rfl
@[simp] theorem State.setMem_i (s : State) (m : Memory) : (s.setMem m).i = s.i := rfl
@[simp] theorem State.setMem_pc (s : State) (m : Memory) : (s.setMem m).pc = s.pc := rfl
@[simp] theorem State.setMem_stack (s : State) (m : Memory) : (s.setMem m).stack = s.stack := rfl
@[simp] theorem State.setMem_sp (s : State) (m : Memory) : (s.setMem m).sp = s.sp := rfl
@[simp] theorem State.setMem_dt (s : State) (m : Memory) : (s.setMem m).dt = s.dt := rfl
@[simp] theorem State.setMem_st (s : State) (m : Memory) : (s.setMem m).st = s.st := rfl
@[simp] theorem State.setMem_keys (s : State) (m : Memory) : (s.setMem m).keys = s.keys := rfl
@[simp] theorem State.setMem_kw (s : State) (m : Memory) : (s.setMem m).kw = s.kw := rfl
@[simp] theorem State.setMem_fb (s : State) (m : Memory) : (s.setMem m).fb = s.fb := rfl
@[simp] theorem State.setMem_redraw (s : State) (m : Memory) : (s.setMem m).redraw = s.redraw := rfl
@[simp] theorem State.setMem_shiftSource (s : State) (m : Memory) : (s.setMem m).shiftSource = s.shiftSource := rfl
@[simp] theorem State.setMem_draws (s : State) (m : Memory) : (s.setMem m).draws = s.draws := rfl

@[simp] theorem State.withShiftSource_mem (s : State) (src : ShiftSource) : (s.withShiftSource src).mem = s.mem := rfl
@[simp] theorem State.withShiftSource_v (s : State) (src : ShiftSource) : (s.withShiftSource src).v = s.v := rfl
@[simp] theorem State.withShiftSource_i (s : State) (src : ShiftSource) : (s.withShiftSource src).i = s.i := rfl
@[simp] theorem State.withShiftSource_pc (s : State) (src : ShiftSource) : (s.withShiftSource src).pc = s.pc := rfl
@[simp] theorem State.withShiftSource_stack (s : State) (src : ShiftSource) : (s.withShiftSource src).stack = s.stack := rfl
@[simp] theorem State.withShiftSource_sp (s : State) (src : ShiftSource) : (s.withShiftSource src).sp = s.sp := rfl
@[simp] theorem State.withShiftSource_dt (s : State) (src : ShiftSource) : (s.withShiftSource src).dt = s.dt := rfl
@[simp] theorem State.withShiftSource_st (s : State) (src : ShiftSource) : (s.withShiftSource src).st = s.st := rfl
@[simp] theorem State.withShiftSource_keys (s : State) (src : ShiftSource) : (s.withShiftSource src).keys = s.keys := rfl
@[simp] theorem State.withShiftSource_kw (s : State) (src : ShiftSource) : (s.withShiftSource src).kw = s.kw := rfl
@[simp] theorem State.withShiftSource_fb (s : State) (src : ShiftSource) : (s.withShiftSource src).fb = s.fb := rfl
@[simp] theorem State.withShiftSource_redraw (s : State) (src : ShiftSource) : (s.withShiftSource src).redraw = s.redraw := rfl
@[simp] theorem State.withShiftSource_shiftSource (s : State) (src : ShiftSource) : (s.withShiftSource src).shiftSource = src := rfl
@[simp] theorem State.withShiftSource_draws (s : State) (src : ShiftSource) : (s.withShiftSource src).draws = s.draws := rfl

@[simp] theorem State.skipDraws_mem (s : State) (n : Nat) : (s.skipDraws n).mem = s.mem := rfl
@[simp] theorem State.skipDraws_v (s : State) (n : Nat) : (s.skipDraws n).v = s.v := rfl
@[simp] theorem State.skipDraws_i (s : State) (n : Nat) : (s.skipDraws n).i = s.i := rfl
@[simp] theorem State.skipDraws_pc (s : State) (n : Nat) : (s.skipDraws n).pc = s.pc := rfl
@[simp] theorem State.skipDraws_stack (s : State) (n : Nat) : (s.skipDraws n).stack = s.stack := rfl
@[simp] theorem State.skipDraws_sp (s : State) (n : Nat) : (s.skipDraws n).sp = s.sp := rfl
@[simp] theorem State.skipDraws_dt (s : State) (n : Nat) : (s.skipDraws n).dt = s.dt := rfl
@[simp] theorem State.skipDraws_st (s : State) (n : Nat) : (s.skipDraws n).st = s.st := rfl
@[simp] theorem State.skipDraws_keys (s : State) (n : Nat) : (s.skipDraws n).keys = s.keys := rfl
@[simp] theorem State.skipDraws_kw (s : State) (n : Nat) : (s.skipDraws n).kw = s.kw := rfl
@[simp] theorem State.skipDraws_fb (s : State) (n : Nat) : (s.skipDraws n).fb = s.fb := rfl
@[simp] theorem State.skipDraws_redraw (s : State) (n : Nat) : (s.skipDraws n).redraw = s.redraw := rfl
@[simp] theorem State.skipDraws_shiftSource (s : State) (n : Nat) : (s.skipDraws n).shiftSource = s.shiftSource := rfl
@[simp] theorem State.skipDraws_draws (s : State) (n : Nat) : (s.skipDraws n).draws = s.draws + n := rfl

@[simp] theorem State.advance_mem (s : State) : s.advance.mem = s.mem := rfl
@[simp] theorem State.advance_v (s : State) : s.advance.v = s.v := rfl
@[simp] theorem State.advance_i (s : State) : s.advance.i = s.i := rfl
@[simp] theorem State.advance_pc (s : State) : s.advance.pc = s.pc + 2 := rfl
@[simp] theorem State.advance_stack (s : State) : s.advance.stack = s.stack := rfl
@[simp] theorem State.advance_sp (s : State) : s.advance.sp = s.sp := rfl
@[simp] theorem State.advance_dt (s : State) : s.advance.dt = s.dt := rfl
@[simp] theorem State.advance_st (s : State) : s.advance.st = s.st := rfl
@[simp] theorem State.advance_keys (s : State) : s.advance.keys = s.keys := rfl
@[simp] theorem State.advance_kw (s : State) : s.advance.kw = s.kw := rfl
@[simp] theorem State.advance_fb (s : State) : s.advance.fb = s.fb := rfl
@[simp] theorem State.advance_redraw (s : State) : s.advance.redraw = s.redraw := rfl
@[simp] theorem State.advance_shiftSource (s : State) : s.advance.shiftSource = s.shiftSource := rfl
@[simp] theorem State.advance_draws (s : State) : s.advance.draws = s.draws := rfl

@[simp] theorem State.skipIf_mem (s : State) (c : Bool) : (s.skipIf c).mem = s.mem := rfl
@[simp] theorem State.skipIf_v (s : State) (c : Bool) : (s.skipIf c).v = s.v := rfl
@[simp] theorem State.skipIf_i (s : State) (c : Bool) : (s.skipIf c).i = s.i := rfl
@[simp] theorem State.skipIf_pc (s : State) (c : Bool) : (s.skipIf c).pc = s.pc + if c then 4 else 2 := rfl
@[simp] theorem State.skipIf_stack (s : State) (c : Bool) : (s.skipIf c).stack = s.stack := rfl
@[simp] theorem State.skipIf_sp (s : State) (c : Bool) : (s.skipIf c).sp = s.sp := rfl
@[simp] theorem State.skipIf_dt (s : State) (c : Bool) : (s.skipIf c).dt = s.dt := rfl
@[simp] theorem State.skipIf_st (s : State) (c : Bool) : (s.skipIf c).st = s.st := rfl
@[simp] theorem State.skipIf_keys (s : State) (c : Bool) : (s.skipIf c).keys = s.keys := rfl
@[simp] theorem State.skipIf_kw (s : State) (c : Bool) : (s.skipIf c).kw = s.kw := rfl
@[simp] theorem State.skipIf_fb (s : State) (c : Bool) : (s.skipIf c).fb = s.fb := rfl
@[simp] theorem State.skipIf_redraw (s : State) (c : Bool) : (s.skipIf c).redraw = s.redraw := rfl
@[simp] theorem State.skipIf_shiftSource (s : State) (c : Bool) : (s.skipIf c).shiftSource = s.shiftSource := rfl
@[simp] theorem State.skipIf_draws (s : State) (c : Bool) : (s.skipIf c).draws = s.draws := rfl

/-! ## Registers and latches after updates -/

@[simp] theorem State.getKey_setV (s : State) (x : Reg) (b : Byte) (j : Key) : (s.setV x b).getKey j = s.getKey j := rfl
@[simp] theorem State.getKey_setVF (s : State) (b : Byte) (j : Key) : (s.setVF b).getKey j = s.getKey j := rfl
@[simp] theorem State.getKey_setLow (s : State) (bytes : List Byte) (j : Key) : (s.setLow bytes).getKey j = s.getKey j := rfl
@[simp] theorem State.getV_setI (s : State) (a : Word) (r : Reg) : (s.setI a).getV r = s.getV r := rfl
@[simp] theorem State.getKey_setI (s : State) (a : Word) (j : Key) : (s.setI a).getKey j = s.getKey j := rfl
@[simp] theorem State.getV_setPc (s : State) (target : Word) (r : Reg) : (s.setPc target).getV r = s.getV r := rfl
@[simp] theorem State.getKey_setPc (s : State) (target : Word) (j : Key) : (s.setPc target).getKey j = s.getKey j := rfl
@[simp] theorem State.getV_setDt (s : State) (b : Byte) (r : Reg) : (s.setDt b).getV r = s.getV r := rfl
@[simp] theorem State.getKey_setDt (s : State) (b : Byte) (j : Key) : (s.setDt b).getKey j = s.getKey j := rfl
@[simp] theorem State.getV_setSt (s : State) (b : Byte) (r : Reg) : (s.setSt b).getV r = s.getV r := rfl
@[simp] theorem State.getKey_setSt (s : State) (b : Byte) (j : Key) : (s.setSt b).getKey j = s.getKey j := rfl
@[simp] theorem State.getV_setKeyLatch (s : State) (k : Key) (p : Bool) (r : Reg) : (s.setKeyLatch k p).getV r = s.getV r := rfl
@[simp] theorem State.getV_setKw (s : State) (w : KeyWait) (r : Reg) : (s.setKw w).getV r = s.getV r := rfl
@[simp] theorem State.getKey_setKw (s : State) (w : KeyWait) (j : Key) : (s.setKw w).getKey j = s.getKey j := rfl
@[simp] theorem State.getV_setFb (s : State) (f : Frame) (r : Reg) : (s.setFb f).getV r = s.getV r := rfl
@[simp] theorem State.getKey_setFb (s : State) (f : Frame) (j : Key) : (s.setFb f).getKey j = s.getKey j := rfl
@[simp] theorem State.getV_setRedraw (s : State) (b : Bool) (r : Reg) : (s.setRedraw b).getV r = s.getV r := rfl
@[simp] theorem State.getKey_setRedraw (s : State) (b : Bool) (j : Key) : (s.setRedraw b).getKey j = s.getKey j := rfl
@[simp] theorem State.getV_setMem (s : State) (m : Memory) (r : Reg) : (s.setMem m).getV r = s.getV r := rfl
@[simp] theorem State.getKey_setMem (s : State) (m : Memory) (j : Key) : (s.setMem m).getKey j = s.getKey j := rfl
@[simp] theorem State.getV_withShiftSource (s : State) (src : ShiftSource) (r : Reg) : (s.withShiftSource src).getV r = s.getV r := rfl
@[simp] theorem State.getKey_withShiftSource (s : State) (src : ShiftSource) (j : Key) : (s.withShiftSource src).getKey j = s.getKey j := rfl
@[simp] theorem State.getV_skipDraws (s : State) (n : Nat) (r : Reg) : (s.skipDraws n).getV r = s.getV r := rfl
@[simp] theorem State.getKey_skipDraws (s : State) (n : Nat) (j : Key) : (s.skipDraws n).getKey j = s.getKey j := rfl
@[simp] theorem State.getV_advance (s : State) (r : Reg) : s.advance.getV r = s.getV r := rfl
@[simp] theorem State.getKey_advance (s : State) (j : Key) : s.advance.getKey j = s.getKey j := rfl
@[simp] theorem State.getV_skipIf (s : State) (c : Bool) (r : Reg) : (s.skipIf c).getV r = s.getV r := rfl
@[simp] theorem State.getKey_skipIf (s : State) (c : Bool) (j : Key) : (s.skipIf c).getKey j = s.getKey j := rfl

/-- Reading V[r] after V[x] <- b. -/
theorem State.getV_setV (s : State) (x r : Reg) (b : Byte) :
    (s.setV x b).getV r = if r = x then b else s.getV r := by
  by_cases h : r = x
  · subst h
    simp [State.getV]
  · have : x.val ≠ r.val := fun e => h (Fin.ext e.symm)
    simp [State.getV, h, this]

@[simp] theorem State.getV_setV_same (s : State) (x : Reg) (b : Byte) : (s.setV x b).getV x = b := by
  simp [State.getV_setV]

theorem State.getV_setV_other (s : State) (x r : Reg) (b : Byte) (h : r ≠ x) :
    (s.setV x b).getV r = s.getV r := by
  simp [State.getV_setV, h]

/-- Reading V[r] after VF <- b. -/
theorem State.getV_setVF (s : State) (r : Reg) (b : Byte) :
    (s.setVF b).getV r = if r = 0xF then b else s.getV r :=
  State.getV_setV s 0xF r b

/-- Reading V[r] after V[0], V[1], ... were written from a list. -/
theorem State.getV_setLow (s : State) (bytes : List Byte) (r : Reg) :
    (s.setLow bytes).getV r = bytes.getD r.val (s.getV r) := by
  simp [State.getV]

/-- Reading K[j] after K[k] <- p. -/
theorem State.getKey_setKeyLatch (s : State) (k j : Key) (p : Bool) :
    (s.setKeyLatch k p).getKey j = if j = k then p else s.getKey j := by
  by_cases h : j = k
  · subst h
    simp [State.getKey]
  · have : k.val ≠ j.val := fun e => h (Fin.ext e.symm)
    simp [State.getKey, h, this]

/-- The registers written before the flag: V[x] reads b unless x is VF. -/
theorem State.getV_setV_setVF (s : State) (x r : Reg) (b f : Byte) :
    ((s.setV x b).setVF f).getV r = if r = 0xF then f else if r = x then b else s.getV r := by
  rw [State.getV_setVF, State.getV_setV]

/-! ## The stack (10_state.md R41) -/

/-- All a push does: with a free slot it writes slot SP and counts it, and without one it answers nothing. -/
theorem State.push_cases (s : State) (ret : Word) :
    (∃ h : s.sp.val < 16, s.push ret =
        some { s with stack := s.stack.set s.sp.val ret h, sp := ⟨s.sp.val + 1, by omega⟩ }) ∨
      (s.sp.val = 16 ∧ s.push ret = none) := by
  by_cases h : s.sp.val < 16
  · exact .inl ⟨h, by simp [State.push, h]⟩
  · exact .inr ⟨by omega, by simp [State.push, h]⟩

/-- All a pop does: with a slot in use it reads slot SP - 1 and uncounts it, and without one it answers
nothing. -/
theorem State.pop_cases (s : State) :
    (∃ h : 0 < s.sp.val, s.pop =
        some (s.stack[s.sp.val - 1]'(by omega), { s with sp := ⟨s.sp.val - 1, by omega⟩ })) ∨
      (s.sp.val = 0 ∧ s.pop = none) := by
  by_cases h : 0 < s.sp.val
  · exact .inl ⟨h, by simp [State.pop, h]⟩
  · exact .inr ⟨by omega, by simp [State.pop, h]⟩

/-! ## Fetch (40_engine.md R132) -/

/-- A fetch inside memory gives the two bytes at PC, big-endian. -/
theorem fetch_inside (s : State) (h : s.pc.toNat ≤ 0xFFE) :
    fetch s = some (bigEndian (Memory.read s.mem s.pc.toNat) (Memory.read s.mem (s.pc.toNat + 1))) := by
  simp [fetch, h]

/-- A fetch outside memory gives nothing. -/
theorem fetch_outside (s : State) (h : 0xFFE < s.pc.toNat) : fetch s = none := by
  simp [fetch, h]

/-- What a successful fetch says of PC. -/
theorem fetch_eq_some (s : State) (w : Word) (h : fetch s = some w) : s.pc.toNat ≤ 0xFFE := by
  by_contra hp
  simp [fetch_outside s (by omega)] at h

end Sys2Proof.Machine
end

