-- ==== Sys2Proof/Laws/Exec.lean ====
section
/-! SUPPORT. What a step can do, what a store through I can do, and how frames compose. -/

namespace Sys2Proof.Machine

/-! ## The step (40_engine.md R130) -/

theorem step_waiting (s : State) (x : Reg) (h : s.kw = .waiting x) : step s = .next s := by
  simp [step, h, stepWaiting]

theorem step_captured (s : State) (x : Reg) (k : Key) (h : s.kw = .captured x k) :
    step s = .next (((s.setV x (BitVec.ofNat 8 k.val)).advance).setKw .notWaiting) := by
  simp [step, h, stepCaptured]

/-- All a step can do when no key-wait is pending. -/
theorem step_cases (s : State) (h : s.kw = .notWaiting) :
    (fetch s = none ∧ step s = .fault (.memoryOutOfRange none s.pc)) ∨
      (∃ w, fetch s = some w ∧ decode w = none ∧ step s = .fault (.unrecognizedOpcode w s.pc)) ∨
      (∃ w i, fetch s = some w ∧ decode w = some i ∧ step s = exec i s) := by
  cases hf : fetch s with
  | none => exact .inl ⟨rfl, by simp [step, h, hf, fetchError]⟩
  | some w =>
    cases hd : decode w with
    | none => exact .inr (.inl ⟨w, rfl, hd, by simp [step, h, hf, hd, decodeError]⟩)
    | some i => exact .inr (.inr ⟨w, i, rfl, hd, by simp [step, h, hf, hd]⟩)

/-- A step that answers a next state left a key-wait pending, completed one, or executed an instruction. -/
theorem step_eq_next (s t : State) (h : step s = .next t) :
    (∃ x, s.kw = .waiting x ∧ t = s) ∨
      (∃ x k, s.kw = .captured x k ∧ t = ((s.setV x (BitVec.ofNat 8 k.val)).advance).setKw .notWaiting) ∨
      (∃ w i, s.kw = .notWaiting ∧ fetch s = some w ∧ decode w = some i ∧ exec i s = .next t) := by
  cases hk : s.kw with
  | waiting x =>
    rw [step_waiting s x hk] at h
    exact .inl ⟨x, rfl, (Host.Outcome.next.inj h).symm⟩
  | captured x k =>
    rw [step_captured s x k hk] at h
    exact .inr (.inl ⟨x, k, rfl, (Host.Outcome.next.inj h).symm⟩)
  | notWaiting =>
    rcases step_cases s hk with ⟨-, he⟩ | ⟨w, -, -, he⟩ | ⟨w, i, hf, hd, he⟩
    · simp [he] at h
    · simp [he] at h
    · exact .inr (.inr ⟨w, i, rfl, hf, hd, he ▸ h⟩)

/-! ## A store through I (20_memory.md R75) -/

/-- All a store through I can do: every byte lands and PC moves on, or the instruction raises and nothing
lands. -/
theorem storeAtI_cases (bytes : List Byte) (i : Instr) (s : State) :
    (InRange s.i.toNat bytes.length ∧
        storeAtI bytes i s = .next (s.setMem (Memory.writeAll s.mem s.i.toNat bytes)).advance) ∨
      (¬ InRange s.i.toNat bytes.length ∧
        storeAtI bytes i s = .fault (.memoryOutOfRange (some (encode i)) s.pc)) := by
  rcases Memory.store_cases s.mem s.i.toNat bytes with ⟨hr, he⟩ | ⟨hr, he⟩
  · exact .inl ⟨hr, by simp [storeAtI, dataBase, he]⟩
  · exact .inr ⟨hr, by simp [storeAtI, dataBase, he, raiseMemory, raise]⟩

/-! ## The instructions that can fail: all each can do -/

theorem exec_ret_cases (s : State) :
    (∃ h : 0 < s.sp.val, exec .ret s =
        .next (State.setPc { s with sp := ⟨s.sp.val - 1, by omega⟩ } (s.stack[s.sp.val - 1]'(by omega)))) ∨
      (s.sp.val = 0 ∧ exec .ret s = .fault (.stackUnderflow (encode .ret) s.pc)) := by
  rcases s.pop_cases with ⟨h, e⟩ | ⟨h, e⟩
  · exact .inl ⟨h, by simp only [exec, execRet, e]⟩
  · exact .inr ⟨h, by simp only [exec, execRet, e, raise]⟩

theorem exec_call_cases (nnn : Addr12) (s : State) :
    (∃ h : s.sp.val < 16, exec (.call nnn) s =
        .next (State.setPc { s with stack := s.stack.set s.sp.val (s.pc + 2) h, sp := ⟨s.sp.val + 1, by omega⟩ }
          (addrOperand nnn))) ∨
      (s.sp.val = 16 ∧ exec (.call nnn) s = .fault (.stackOverflow (encode (.call nnn)) s.pc)) := by
  rcases s.push_cases (s.pc + 2) with ⟨h, e⟩ | ⟨h, e⟩
  · exact .inl ⟨h, by simp only [exec, execCall, e]⟩
  · exact .inr ⟨h, by simp only [exec, execCall, e, raise]⟩

theorem exec_skp_cases (x : Reg) (s : State) :
    (∃ h : (s.getV x).toNat < 16, exec (.skp x) s = .next (s.skipIf (s.getKey ⟨(s.getV x).toNat, h⟩))) ∨
      (0xF < (s.getV x).toNat ∧ exec (.skp x) s = .fault (.keyOutOfRange (encode (.skp x)) s.pc)) := by
  rcases hexOperand_cases (s.getV x) with ⟨h, e⟩ | ⟨h, e⟩
  · exact .inl ⟨h, by simp only [exec, execSkp, e]⟩
  · exact .inr ⟨h, by simp only [exec, execSkp, e, raise]⟩

theorem exec_sknp_cases (x : Reg) (s : State) :
    (∃ h : (s.getV x).toNat < 16, exec (.sknp x) s = .next (s.skipIf (!s.getKey ⟨(s.getV x).toNat, h⟩))) ∨
      (0xF < (s.getV x).toNat ∧ exec (.sknp x) s = .fault (.keyOutOfRange (encode (.sknp x)) s.pc)) := by
  rcases hexOperand_cases (s.getV x) with ⟨h, e⟩ | ⟨h, e⟩
  · exact .inl ⟨h, by simp only [exec, execSknp, e]⟩
  · exact .inr ⟨h, by simp only [exec, execSknp, e, raise]⟩

theorem exec_ldFVx_cases (x : Reg) (s : State) :
    (∃ h : (s.getV x).toNat < 16,
        exec (.ldFVx x) s = .next (s.setI (glyphAddress ⟨(s.getV x).toNat, h⟩)).advance) ∨
      (0xF < (s.getV x).toNat ∧ exec (.ldFVx x) s = .fault (.digitOutOfRange (encode (.ldFVx x)) s.pc)) := by
  rcases hexOperand_cases (s.getV x) with ⟨h, e⟩ | ⟨h, e⟩
  · exact .inl ⟨h, by simp only [exec, execLdFVx, e]⟩
  · exact .inr ⟨h, by simp only [exec, execLdFVx, e, raise]⟩

theorem exec_ldBVx_cases (x : Reg) (s : State) :
    (s.i.toNat + 2 ≤ 0xFFF ∧ exec (.ldBVx x) s =
        .next (s.setMem (Memory.writeAll s.mem s.i.toNat (decimalDigits (s.getV x)))).advance) ∨
      (0xFFF < s.i.toNat + 2 ∧
        exec (.ldBVx x) s = .fault (.memoryOutOfRange (some (encode (.ldBVx x))) s.pc)) := by
  rcases storeAtI_cases (decimalDigits (s.getV x)) (.ldBVx x) s with ⟨h, e⟩ | ⟨h, e⟩
  · simp only [InRange, decimalDigits_length] at h
    exact .inl ⟨by omega, e⟩
  · simp only [InRange, decimalDigits_length] at h
    exact .inr ⟨by omega, e⟩

theorem exec_ldMemVx_cases (x : Reg) (s : State) :
    (s.i.toNat + x.val ≤ 0xFFF ∧ exec (.ldMemVx x) s =
        .next (s.setMem (Memory.writeAll s.mem s.i.toNat (lowRegisters x s))).advance) ∨
      (0xFFF < s.i.toNat + x.val ∧
        exec (.ldMemVx x) s = .fault (.memoryOutOfRange (some (encode (.ldMemVx x))) s.pc)) := by
  rcases storeAtI_cases (lowRegisters x s) (.ldMemVx x) s with ⟨h, e⟩ | ⟨h, e⟩
  · simp only [InRange, lowRegisters_length] at h
    exact .inl ⟨by omega, e⟩
  · simp only [InRange, lowRegisters_length] at h
    exact .inr ⟨by omega, e⟩

theorem exec_ldVxMem_cases (x : Reg) (s : State) :
    (s.i.toNat + x.val ≤ 0xFFF ∧ exec (.ldVxMem x) s =
        .next (s.setLow ((List.range (x.val + 1)).map fun k => Memory.read s.mem (s.i.toNat + k))).advance) ∨
      (0xFFF < s.i.toNat + x.val ∧
        exec (.ldVxMem x) s = .fault (.memoryOutOfRange (some (encode (.ldVxMem x))) s.pc)) := by
  rcases Memory.load_cases s.mem s.i.toNat (x.val + 1) with ⟨h, e⟩ | ⟨h, e⟩
  · simp only [InRange] at h
    exact .inl ⟨by omega, by simp only [exec, execLdVxMem, dataBase, e]⟩
  · simp only [InRange] at h
    exact .inr ⟨by omega, by simp only [exec, execLdVxMem, dataBase, e, raiseMemory, raise]⟩

/-- The rows DRW draws: the n bytes at I. -/
def spriteRows (s : State) (n : Nat) : List Byte := (List.range n).map fun k => Memory.read s.mem (s.i.toNat + k)

theorem exec_drw_cases (x y : Reg) (n : RowCount) (s : State) :
    (InRange s.i.toNat n.val ∧ exec (.drw x y n) s =
        .next (((s.setFb (drawSprite (s.getV x).toNat (s.getV y).toNat (spriteRows s n.val) s.fb).1).setRedraw
          true).setVF
            (collisionFlag (drawSprite (s.getV x).toNat (s.getV y).toNat (spriteRows s n.val) s.fb).2)).advance) ∨
      (¬ InRange s.i.toNat n.val ∧
        exec (.drw x y n) s = .fault (.memoryOutOfRange (some (encode (.drw x y n))) s.pc)) := by
  rcases Memory.load_cases s.mem s.i.toNat n.val with ⟨h, e⟩ | ⟨h, e⟩
  · exact .inl ⟨h, by simp only [exec, execDrw, dataBase, e, spriteRows]⟩
  · exact .inr ⟨h, by simp only [exec, execDrw, dataBase, e, raiseMemory, raise]⟩

/-- The pixels a sprite's rows cover are those that SpriteCovers names. -/
theorem rowsCover_spriteRows (s : State) (cx cy n : Nat) (c : Fin 64) (q : Fin 32) :
    rowsCover cx cy (spriteRows s n) 0 c q ↔ SpriteCovers s cx cy n c.val q.val := by
  simp only [rowsCover, SpriteCovers, spriteRows, List.length_map, List.length_range, spriteRow, spriteColumn,
    Fin.ext_iff, Fin.val_ofNat, Nat.zero_add]
  constructor
  · rintro ⟨r, hr, hq, b, hb, hbit, hc⟩
    exact ⟨r, hr, b, hb, by simpa [List.getD_eq_getElem?_getD, hr] using hbit, hc, hq⟩
  · rintro ⟨r, hr, b, hb, hbit, hc, hq⟩
    exact ⟨r, hr, hq, b, hb, by simpa [List.getD_eq_getElem?_getD, hr] using hbit, hc⟩

/-! ## Frames -/

/-- Nothing changed. -/
theorem OnlyWrites.same (w : Writes) (s : State) : OnlyWrites w s s := by
  simp [OnlyWrites]

/-- A step that completes a key-wait touches only the register and KW. -/
theorem onlyWrites_captured (s : State) (x : Reg) (b : Byte) :
    OnlyWrites { regs := fun r => r = x, keyWait := true } s (((s.setV x b).advance).setKw .notWaiting) := by
  simp +contextual [OnlyWrites, State.getV_setV]

end Sys2Proof.Machine
end

