-- ==== Sys2Proof/Laws/Frame.lean ====
section
/-! SUPPORT. The frame of every instruction in one lemma, and how writes of registers commute. -/

namespace Sys2Proof.Machine

/-- What an instruction may write, apart from PC, when it succeeds. -/
def mayWrite (i : Instr) (s : State) : Writes :=
  match i with
  | .cls => { frame := true, redraw := true }
  | .ret | .call _ => { stack := true }
  | .ldI _ | .addIVx _ | .ldFVx _ => { index := true }
  | .rnd x _ => { regs := fun r => r = x, draws := true }
  | .drw _ _ _ => { regs := fun r => r = 0xF, frame := true, redraw := true }
  | .ldVxK _ => { keyWait := true }
  | .ldDtVx _ => { delay := true }
  | .ldStVx _ => { sound := true }
  | .ldBVx _ => { mem := fun a => s.i.toNat ≤ a ∧ a ≤ s.i.toNat + 2 }
  | .ldMemVx x => { mem := fun a => s.i.toNat ≤ a ∧ a ≤ s.i.toNat + x.val }
  | j => { regs := fun r => writesReg j r }

/-- An instruction that succeeds writes nothing but PC and what `mayWrite` names. -/
theorem exec_onlyWrites (i : Instr) (s t : State) (h : exec i s = .next t) : OnlyWrites (mayWrite i s) s t := by
  cases i
  case ret =>
    rcases exec_ret_cases s with ⟨_, e⟩ | ⟨_, e⟩ <;> rw [e] at h <;> cases h
    simp [OnlyWrites, mayWrite, State.getV, State.getKey]
  case call nnn =>
    rcases exec_call_cases nnn s with ⟨_, e⟩ | ⟨_, e⟩ <;> rw [e] at h <;> cases h
    simp [OnlyWrites, mayWrite, State.getV, State.getKey]
  case skp x =>
    rcases exec_skp_cases x s with ⟨_, e⟩ | ⟨_, e⟩ <;> rw [e] at h <;> cases h
    simp [OnlyWrites, mayWrite]
  case sknp x =>
    rcases exec_sknp_cases x s with ⟨_, e⟩ | ⟨_, e⟩ <;> rw [e] at h <;> cases h
    simp [OnlyWrites, mayWrite]
  case ldFVx x =>
    rcases exec_ldFVx_cases x s with ⟨_, e⟩ | ⟨_, e⟩ <;> rw [e] at h <;> cases h
    simp [OnlyWrites, mayWrite]
  case ldBVx x =>
    rcases exec_ldBVx_cases x s with ⟨_, e⟩ | ⟨_, e⟩ <;> rw [e] at h <;> cases h
    simp [OnlyWrites, mayWrite, Memory.read_writeAll]
    omega
  case ldMemVx x =>
    rcases exec_ldMemVx_cases x s with ⟨_, e⟩ | ⟨_, e⟩ <;> rw [e] at h <;> cases h
    simp [OnlyWrites, mayWrite, Memory.read_writeAll]
    omega
  case ldVxMem x =>
    rcases exec_ldVxMem_cases x s with ⟨_, e⟩ | ⟨_, e⟩ <;> rw [e] at h <;> cases h
    simp [OnlyWrites, mayWrite, writesReg]
    intro r hr
    rw [State.getV_setLow, List.getD_eq_default]
    simpa using hr
  case drw x y n =>
    rcases exec_drw_cases x y n s with ⟨_, e⟩ | ⟨_, e⟩ <;> rw [e] at h <;> cases h
    simp +contextual [OnlyWrites, mayWrite, State.getV_setVF]
  case jp | jpV0 | seImm | sneImm | seReg | sneReg =>
    simp only [exec, execJp, execJpV0, execSeImm, execSneImm, execSeReg, execSneReg, Host.Outcome.next.injEq] at h
    subst h
    simp [OnlyWrites, mayWrite]
  case cls | ldI | addIVx | ldVxK | ldDtVx | ldStVx =>
    simp only [exec, execCls, execLdI, execAddIVx, execLdVxK, execLdDtVx, execLdStVx,
      Host.Outcome.next.injEq] at h
    subst h
    simp [OnlyWrites, mayWrite]
  case ldImm | addImm | ldReg | orReg | andReg | xorReg | rnd | ldVxDt =>
    simp only [exec, execLdImm, execAddImm, execLdReg, execOr, execAnd, execXor, execRnd, execLdVxDt, writeResult,
      Host.Outcome.next.injEq] at h
    subst h
    simp +contextual [OnlyWrites, mayWrite, writesReg, State.getV_setV]
  all_goals
    simp only [exec, execAddReg, execSub, execShr, execSubn, execShl,
      writeResultAndFlag, Host.Outcome.next.injEq] at h
    subst h
    simp +contextual [OnlyWrites, mayWrite, writesReg, State.getV_setV, State.getV_setVF, not_or]

/-- Writes of different registers commute. -/
theorem State.setV_comm (s : State) (x r : Reg) (a b : Byte) (h : r ≠ x) :
    (s.setV r b).setV x a = (s.setV x a).setV r b := by
  have : r.val ≠ x.val := fun e => h (Fin.ext e)
  simp only [State.setV, Vector.set_comm _ _ this]

/-- The later write of a register wins. -/
theorem State.setV_setV (s : State) (x : Reg) (a b : Byte) : (s.setV x b).setV x a = s.setV x a := by
  simp [State.setV]

end Sys2Proof.Machine
end

