-- ==== Sys2Proof/Laws/PerInstr.lean ====
section
/-! SUPPORT. One lemma per instruction: its word matches the row of the opcode map that bears its name. The rows
were written from the mask and match columns of 30_encoding.md R103, the encoder from its patterns. -/

namespace Sys2Proof.Laws

/-- The row of the opcode map with the instruction's name matches the instruction's word. -/
def EncodesInTable.Statement (i : Instr) : Prop :=
  ∃ row ∈ opcodeRows, row.mnemonic = i.mnemonic ∧ row.admits (encode i) = true

/-- A row that fixes the family nibble matches every packed word of its family. -/
theorem admits_family (name : String) (w : Word) (bits : Word) (op : BitVec 4) (hb : bits = packAddr op 0)
    (hw : opOf w = op) : (OpcodeRow.mk name 0xF000#16 bits).admits w = true := by
  simp only [OpcodeRow.admits, beq_iff_eq, hb, familyMask_iff, hw]

/-- A row that fixes the family nibble and the lowest one matches such words. -/
theorem admits_pair (name : String) (w : Word) (bits : Word) (op : BitVec 4) (n : Fin 16)
    (hb : bits = pack4 op 0 0 n) (hw : opOf w = op) (hn : nOf w = n) :
    (OpcodeRow.mk name 0xF00F#16 bits).admits w = true := by
  simp only [OpcodeRow.admits, beq_iff_eq, hb, pairMask_iff, hw, hn, and_self]

/-- A row that fixes the family nibble and the low byte matches such words. -/
theorem admits_single (name : String) (w : Word) (bits : Word) (op : BitVec 4) (nn : Byte)
    (hb : bits = packByte op 0 nn) (hw : opOf w = op) (hn : nnOf w = nn) :
    (OpcodeRow.mk name 0xF0FF#16 bits).admits w = true := by
  simp only [OpcodeRow.admits, beq_iff_eq, hb, singleMask_iff, hw, hn, and_self]

theorem EncodesInTable.cls : EncodesInTable.Statement .cls :=
  ⟨⟨"CLS", 0xFFFF, 0x00E0⟩, by decide, rfl, by decide⟩

theorem EncodesInTable.ret : EncodesInTable.Statement .ret :=
  ⟨⟨"RET", 0xFFFF, 0x00EE⟩, by decide, rfl, by decide⟩

theorem EncodesInTable.jp (nnn : Addr12) : EncodesInTable.Statement (.jp nnn) :=
  ⟨⟨"JP", 0xF000, 0x1000⟩, by decide, rfl, admits_family _ _ _ 0x1 (by decide) (by simp [encode])⟩

theorem EncodesInTable.call (nnn : Addr12) : EncodesInTable.Statement (.call nnn) :=
  ⟨⟨"CALL", 0xF000, 0x2000⟩, by decide, rfl, admits_family _ _ _ 0x2 (by decide) (by simp [encode])⟩

theorem EncodesInTable.seImm (x : Reg) (nn : Byte) : EncodesInTable.Statement (.seImm x nn) :=
  ⟨⟨"SE_IMM", 0xF000, 0x3000⟩, by decide, rfl, admits_family _ _ _ 0x3 (by decide) (by simp [encode])⟩

theorem EncodesInTable.sneImm (x : Reg) (nn : Byte) : EncodesInTable.Statement (.sneImm x nn) :=
  ⟨⟨"SNE_IMM", 0xF000, 0x4000⟩, by decide, rfl, admits_family _ _ _ 0x4 (by decide) (by simp [encode])⟩

theorem EncodesInTable.seReg (x : Reg) (y : Reg) : EncodesInTable.Statement (.seReg x y) :=
  ⟨⟨"SE_REG", 0xF00F, 0x5000⟩, by decide, rfl, admits_pair _ _ _ 0x5 0x0 (by decide) (by simp [encode]) (by simp [encode])⟩

theorem EncodesInTable.ldImm (x : Reg) (nn : Byte) : EncodesInTable.Statement (.ldImm x nn) :=
  ⟨⟨"LD_IMM", 0xF000, 0x6000⟩, by decide, rfl, admits_family _ _ _ 0x6 (by decide) (by simp [encode])⟩

theorem EncodesInTable.addImm (x : Reg) (nn : Byte) : EncodesInTable.Statement (.addImm x nn) :=
  ⟨⟨"ADD_IMM", 0xF000, 0x7000⟩, by decide, rfl, admits_family _ _ _ 0x7 (by decide) (by simp [encode])⟩

theorem EncodesInTable.ldReg (x : Reg) (y : Reg) : EncodesInTable.Statement (.ldReg x y) :=
  ⟨⟨"LD_REG", 0xF00F, 0x8000⟩, by decide, rfl, admits_pair _ _ _ 0x8 0x0 (by decide) (by simp [encode]) (by simp [encode])⟩

theorem EncodesInTable.orReg (x : Reg) (y : Reg) : EncodesInTable.Statement (.orReg x y) :=
  ⟨⟨"OR", 0xF00F, 0x8001⟩, by decide, rfl, admits_pair _ _ _ 0x8 0x1 (by decide) (by simp [encode]) (by simp [encode])⟩

theorem EncodesInTable.andReg (x : Reg) (y : Reg) : EncodesInTable.Statement (.andReg x y) :=
  ⟨⟨"AND", 0xF00F, 0x8002⟩, by decide, rfl, admits_pair _ _ _ 0x8 0x2 (by decide) (by simp [encode]) (by simp [encode])⟩

theorem EncodesInTable.xorReg (x : Reg) (y : Reg) : EncodesInTable.Statement (.xorReg x y) :=
  ⟨⟨"XOR", 0xF00F, 0x8003⟩, by decide, rfl, admits_pair _ _ _ 0x8 0x3 (by decide) (by simp [encode]) (by simp [encode])⟩

theorem EncodesInTable.addReg (x : Reg) (y : Reg) : EncodesInTable.Statement (.addReg x y) :=
  ⟨⟨"ADD_REG", 0xF00F, 0x8004⟩, by decide, rfl, admits_pair _ _ _ 0x8 0x4 (by decide) (by simp [encode]) (by simp [encode])⟩

theorem EncodesInTable.sub (x : Reg) (y : Reg) : EncodesInTable.Statement (.sub x y) :=
  ⟨⟨"SUB", 0xF00F, 0x8005⟩, by decide, rfl, admits_pair _ _ _ 0x8 0x5 (by decide) (by simp [encode]) (by simp [encode])⟩

theorem EncodesInTable.shr (x : Reg) (y : Reg) : EncodesInTable.Statement (.shr x y) :=
  ⟨⟨"SHR", 0xF00F, 0x8006⟩, by decide, rfl, admits_pair _ _ _ 0x8 0x6 (by decide) (by simp [encode]) (by simp [encode])⟩

theorem EncodesInTable.subn (x : Reg) (y : Reg) : EncodesInTable.Statement (.subn x y) :=
  ⟨⟨"SUBN", 0xF00F, 0x8007⟩, by decide, rfl, admits_pair _ _ _ 0x8 0x7 (by decide) (by simp [encode]) (by simp [encode])⟩

theorem EncodesInTable.shl (x : Reg) (y : Reg) : EncodesInTable.Statement (.shl x y) :=
  ⟨⟨"SHL", 0xF00F, 0x800E⟩, by decide, rfl, admits_pair _ _ _ 0x8 0xE (by decide) (by simp [encode]) (by simp [encode])⟩

theorem EncodesInTable.sneReg (x : Reg) (y : Reg) : EncodesInTable.Statement (.sneReg x y) :=
  ⟨⟨"SNE_REG", 0xF00F, 0x9000⟩, by decide, rfl, admits_pair _ _ _ 0x9 0x0 (by decide) (by simp [encode]) (by simp [encode])⟩

theorem EncodesInTable.ldI (nnn : Addr12) : EncodesInTable.Statement (.ldI nnn) :=
  ⟨⟨"LD_I", 0xF000, 0xA000⟩, by decide, rfl, admits_family _ _ _ 0xA (by decide) (by simp [encode])⟩

theorem EncodesInTable.jpV0 (nnn : Addr12) : EncodesInTable.Statement (.jpV0 nnn) :=
  ⟨⟨"JP_V0", 0xF000, 0xB000⟩, by decide, rfl, admits_family _ _ _ 0xB (by decide) (by simp [encode])⟩

theorem EncodesInTable.rnd (x : Reg) (nn : Byte) : EncodesInTable.Statement (.rnd x nn) :=
  ⟨⟨"RND", 0xF000, 0xC000⟩, by decide, rfl, admits_family _ _ _ 0xC (by decide) (by simp [encode])⟩

theorem EncodesInTable.drw (x : Reg) (y : Reg) (n : RowCount) : EncodesInTable.Statement (.drw x y n) :=
  ⟨⟨"DRW", 0xF000, 0xD000⟩, by decide, rfl, admits_family _ _ _ 0xD (by decide) (by simp [encode])⟩

theorem EncodesInTable.skp (x : Reg) : EncodesInTable.Statement (.skp x) :=
  ⟨⟨"SKP", 0xF0FF, 0xE09E⟩, by decide, rfl, admits_single _ _ _ 0xE 0x9E (by decide) (by simp [encode]) (by simp [encode])⟩

theorem EncodesInTable.sknp (x : Reg) : EncodesInTable.Statement (.sknp x) :=
  ⟨⟨"SKNP", 0xF0FF, 0xE0A1⟩, by decide, rfl, admits_single _ _ _ 0xE 0xA1 (by decide) (by simp [encode]) (by simp [encode])⟩

theorem EncodesInTable.ldVxDt (x : Reg) : EncodesInTable.Statement (.ldVxDt x) :=
  ⟨⟨"LD_VX_DT", 0xF0FF, 0xF007⟩, by decide, rfl, admits_single _ _ _ 0xF 0x07 (by decide) (by simp [encode]) (by simp [encode])⟩

theorem EncodesInTable.ldVxK (x : Reg) : EncodesInTable.Statement (.ldVxK x) :=
  ⟨⟨"LD_VX_K", 0xF0FF, 0xF00A⟩, by decide, rfl, admits_single _ _ _ 0xF 0x0A (by decide) (by simp [encode]) (by simp [encode])⟩

theorem EncodesInTable.ldDtVx (x : Reg) : EncodesInTable.Statement (.ldDtVx x) :=
  ⟨⟨"LD_DT_VX", 0xF0FF, 0xF015⟩, by decide, rfl, admits_single _ _ _ 0xF 0x15 (by decide) (by simp [encode]) (by simp [encode])⟩

theorem EncodesInTable.ldStVx (x : Reg) : EncodesInTable.Statement (.ldStVx x) :=
  ⟨⟨"LD_ST_VX", 0xF0FF, 0xF018⟩, by decide, rfl, admits_single _ _ _ 0xF 0x18 (by decide) (by simp [encode]) (by simp [encode])⟩

theorem EncodesInTable.addIVx (x : Reg) : EncodesInTable.Statement (.addIVx x) :=
  ⟨⟨"ADD_I_VX", 0xF0FF, 0xF01E⟩, by decide, rfl, admits_single _ _ _ 0xF 0x1E (by decide) (by simp [encode]) (by simp [encode])⟩

theorem EncodesInTable.ldFVx (x : Reg) : EncodesInTable.Statement (.ldFVx x) :=
  ⟨⟨"LD_F_VX", 0xF0FF, 0xF029⟩, by decide, rfl, admits_single _ _ _ 0xF 0x29 (by decide) (by simp [encode]) (by simp [encode])⟩

theorem EncodesInTable.ldBVx (x : Reg) : EncodesInTable.Statement (.ldBVx x) :=
  ⟨⟨"LD_B_VX", 0xF0FF, 0xF033⟩, by decide, rfl, admits_single _ _ _ 0xF 0x33 (by decide) (by simp [encode]) (by simp [encode])⟩

theorem EncodesInTable.ldMemVx (x : Reg) : EncodesInTable.Statement (.ldMemVx x) :=
  ⟨⟨"LD_MEM_VX", 0xF0FF, 0xF055⟩, by decide, rfl, admits_single _ _ _ 0xF 0x55 (by decide) (by simp [encode]) (by simp [encode])⟩

theorem EncodesInTable.ldVxMem (x : Reg) : EncodesInTable.Statement (.ldVxMem x) :=
  ⟨⟨"LD_VX_MEM", 0xF0FF, 0xF065⟩, by decide, rfl, admits_single _ _ _ 0xF 0x65 (by decide) (by simp [encode]) (by simp [encode])⟩

end Sys2Proof.Laws
end

