-- ==== Sys2Proof/Tests/Slice0.lean ====
section
/-! SUPPORT. Tests. Part 1: what the well-formedness checks refuse. Part 2: words written out from 30_encoding.md R103 decode
as the spec says. Part 3: one step per instruction, expected results from 95_test_vectors.md (W<n> its worked
examples, otherwise its part 2). Part 4: for every obligation with hypotheses, a state and operands that meet them. -/

namespace Sys2Proof.Tests

open Sys2Proof.Machine

/-! ## Small states -/

/-- The base state of 95_test_vectors.md with a word w standing at address p and PC there. -/
def base (p : Nat) (w : Word) : State :=
  { State.create with mem := Memory.writeAll [] p (wordBytes w), pc := BitVec.ofNat 16 p }

/-- Some more bytes in memory. -/
def holding (a : Nat) (bytes : List Byte) (s : State) : State := s.setMem (Memory.writeAll s.mem a bytes)

/-- A stack with n slots in use, every slot holding the same address. -/
def stacked (n : Fin 17) (ret : Word) (s : State) : State := { s with stack := Vector.replicate 16 ret, sp := n }

/-- One pixel set. -/
def lit (c : Fin 64) (r : Fin 32) (s : State) : State := s.setFb (flipPixel s.fb c r)

/-- The state after a step. -/
def after (s : State) : State := (transact .step s).1

/-- What a step answers. -/
def answer (s : State) : HostOutput := (transact .step s).2

/-! ## Part 1: well-formedness (WellFormed.lean) -/

/-- 0nnn, a skip with a wrong last nibble, an absent 8xy8, a wrong low byte in families E and F (R105). -/
theorem test_wordWellFormed_refuses :
    wordWellFormed 0x0123 = false ∧ wordWellFormed 0x00E1 = false ∧ wordWellFormed 0x5121 = false ∧
    wordWellFormed 0x8AB8 = false ∧ wordWellFormed 0x9AB7 = false ∧ wordWellFormed 0xE300 = false ∧
    wordWellFormed 0xF3FF = false ∧ wordWellFormed 0x8ABE = true := by decide

/-- 3585 bytes are one too many (60_exceptions.md R362). -/
theorem test_romWellFormed_refuses :
    romWellFormed (List.replicate 3585 0) = false ∧ romWellFormed (List.replicate 3584 0) = true := by
  simp only [romWellFormed, List.length_replicate, Config.maxRom]
  decide

/-- FONT_BASE 433 puts the last byte of the font at 0x200 (00_scope.md R9). -/
theorem test_fontPlacementWellFormed_refuses :
    fontPlacementWellFormed 433 5 = false ∧ fontPlacementWellFormed 432 5 = true := by decide

/-- The font of this machine is placed well, whatever FONT_BASE is. -/
theorem test_fontPlacement : fontPlacementWellFormed fontBase fontStride = true := by
  simpa [fontPlacementWellFormed] using fontBase_le

/-! ## Part 2: one word for every constructor, written from its pattern in R103 -/

theorem test_decode_flow :
    decode 0x00EE = some .ret ∧ decode 0x1228 = some (.jp 0x228) ∧ decode 0x2ABC = some (.call 0xABC) ∧
    decode 0x3A10 = some (.seImm 0xA 0x10) ∧ decode 0x4B20 = some (.sneImm 0xB 0x20) ∧
    decode 0x5120 = some (.seReg 1 2) ∧ decode 0x9AB0 = some (.sneReg 0xA 0xB) ∧
    decode 0xB300 = some (.jpV0 0x300) := by decide

theorem test_decode_alu :
    decode 0x6A42 = some (.ldImm 0xA 0x42) ∧ decode 0x7203 = some (.addImm 2 0x03) ∧
    decode 0x8AB0 = some (.ldReg 0xA 0xB) ∧ decode 0x8AB1 = some (.orReg 0xA 0xB) ∧
    decode 0x8AB2 = some (.andReg 0xA 0xB) ∧ decode 0x8AB3 = some (.xorReg 0xA 0xB) ∧
    decode 0x8AB4 = some (.addReg 0xA 0xB) ∧ decode 0x8AB5 = some (.sub 0xA 0xB) ∧
    decode 0x8AB6 = some (.shr 0xA 0xB) ∧ decode 0x8AB7 = some (.subn 0xA 0xB) ∧
    decode 0x8ABE = some (.shl 0xA 0xB) ∧ decode 0xC30F = some (.rnd 3 0x0F) := by decide

theorem test_decode_memory :
    decode 0xA20A = some (.ldI 0x20A) ∧ decode 0xF31E = some (.addIVx 3) ∧ decode 0xF329 = some (.ldFVx 3) ∧
    decode 0xF333 = some (.ldBVx 3) ∧ decode 0xF355 = some (.ldMemVx 3) ∧ decode 0xF365 = some (.ldVxMem 3) := by
  decide

theorem test_decode_devices :
    decode 0x00E0 = some .cls ∧ decode 0xD12F = some (.drw 1 2 0xF) ∧ decode 0xE39E = some (.skp 3) ∧
    decode 0xE3A1 = some (.sknp 3) ∧ decode 0xF307 = some (.ldVxDt 3) ∧ decode 0xF30A = some (.ldVxK 3) ∧
    decode 0xF315 = some (.ldDtVx 3) ∧ decode 0xF318 = some (.ldStVx 3) := by decide

theorem test_decode_unrecognized :
    decode 0x0000 = none ∧ decode 0x00E1 = none ∧ decode 0x0123 = none ∧ decode 0x5121 = none ∧
    decode 0x9AB7 = none ∧ decode 0x8AB8 = none ∧ decode 0x8ABD = none ∧ decode 0x8ABF = none ∧
    decode 0xE39F = none ∧ decode 0xE300 = none ∧ decode 0xF300 = none ∧ decode 0xF3FF = none ∧
    decode 0xF356 = none ∧ decode 0xFFFF = none := by decide

/-- The byte decoder takes the high byte first, consumes two bytes, and refuses by name. -/
theorem test_decodeBytes :
    decodeBytes [0x12, 0x28, 0x99] = .ok (.jp 0x228, [0x99]) ∧
    decodeBytes [0x00] = .error .truncated ∧ decodeBytes [0x51, 0x21] = .error (.unrecognized 0x5121) := by
  refine ⟨rfl, rfl, rfl⟩

/-- The opcode table's numbering: bit 0 is the least significant bit of the one word. -/
theorem test_decodeTableWord :
    decodeTableWord 16 0x1228 = some (.jp 0x228) ∧ decodeTableWord 16 0x8AB6 = some (.shr 0xA 0xB) ∧
    decodeTableWord 16 0xF365 = some (.ldVxMem 3) ∧ decodeTableWord 16 0x5121 = none := by decide

/-- The step after `withFetchWord` runs the word. -/
theorem test_withFetchWord :
    (after (State.reset.withFetchWord 16 0x6A42)).getV 0xA = 0x42 ∧
    (after (State.reset.withFetchWord 16 0x1228)).pc = 0x228 ∧
    (after (State.reset.withFetchWord 16 0xF50A)).kw = .waiting 5 := by decide

/-! ## Part 3: one step each -/

/-- Fetch at the top of memory, at an odd address, and beyond. -/
theorem test_fetch :
    (after (base 0xFFE 0x1FFE)).pc = 0xFFE ∧ (after (base 0x201 0x6007)).getV 0 = 7 ∧
    (after (base 0x201 0x6007)).pc = 0x203 ∧
    answer { base 0x200 0 with pc := 0xFFF } = .err (.memoryOutOfRange none 0xFFF) ∧
    answer { base 0x200 0 with pc := 0x1000 } = .err (.memoryOutOfRange none 0x1000) := by decide

/-- A word that is no instruction: R133. -/
theorem test_unrecognized : answer (base 0x204 0x0000) = .err (.unrecognizedOpcode 0x0000 0x204) := by decide

theorem test_jp : (after (base 0x200 0x1228)).pc = 0x228 := by decide

/-- W3: the call, and the 17th call. -/
theorem test_call :
    (after (base 0x200 0x2300)).stack[0] = 0x202 ∧ (after (base 0x200 0x2300)).sp = 1 ∧
    (after (base 0x200 0x2300)).pc = 0x300 ∧
    answer (stacked 16 0x202 (base 0x200 0x2300)) = .err (.stackOverflow 0x2300 0x200) := by decide

/-- W3: the return leaves the slot's stale value; with an empty stack it is an error. -/
theorem test_ret :
    (after (stacked 1 0x202 (base 0x300 0x00EE))).pc = 0x202 ∧
    (after (stacked 1 0x202 (base 0x300 0x00EE))).sp = 0 ∧
    (after (stacked 1 0x202 (base 0x300 0x00EE))).stack[0] = 0x202 ∧
    answer (base 0x300 0x00EE) = .err (.stackUnderflow 0x00EE 0x300) := by decide

theorem test_seImm :
    (after ((base 0x200 0x3310).setV 3 0x10)).pc = 0x204 ∧
    (after ((base 0x200 0x3310).setV 3 0x11)).pc = 0x202 := by decide

theorem test_sneImm :
    (after ((base 0x200 0x4310).setV 3 0x10)).pc = 0x202 ∧
    (after ((base 0x200 0x4310).setV 3 0x11)).pc = 0x204 := by decide

theorem test_seReg :
    (after (((base 0x200 0x5120).setV 1 7).setV 2 7)).pc = 0x204 ∧ (after (base 0x200 0x5110)).pc = 0x204 := by
  decide

theorem test_sneReg :
    (after (((base 0x200 0x9120).setV 1 7).setV 2 8)).pc = 0x204 ∧ (after (base 0x200 0x9110)).pc = 0x202 := by
  decide

/-- The sum goes above 0xFFF, and only V0 counts. -/
theorem test_jpV0 :
    (after ((base 0x200 0xBFFF).setV 0 0xFF)).pc = 0x10FE ∧ (after ((base 0x200 0xB300).setV 1 0x50)).pc = 0x300 := by
  decide

/-- W1. -/
theorem test_ldImm :
    (after (base 0x200 0x6A42)).getV 0xA = 0x42 ∧ (after (base 0x200 0x6FFF)).getV 0xF = 0xFF ∧
    (after (base 0x200 0x6FFF)).pc = 0x202 := by decide

theorem test_addImm :
    (after (((base 0x200 0x7203).setV 2 0xFE).setVF 1)).getV 2 = 0x01 ∧
    (after (((base 0x200 0x7203).setV 2 0xFE).setVF 1)).getV 0xF = 1 := by decide

theorem test_ldReg : (after ((base 0x200 0x8010).setV 1 0x34)).getV 0 = 0x34 := by decide

theorem test_or :
    (after ((((base 0x200 0x8011).setV 0 0xF0).setV 1 0x0F).setVF 1)).getV 0 = 0xFF ∧
    (after ((((base 0x200 0x8011).setV 0 0xF0).setV 1 0x0F).setVF 1)).getV 0xF = 1 := by decide

theorem test_and : (after (((base 0x200 0x8012).setV 0 0xF0).setV 1 0x3C)).getV 0 = 0x30 := by decide

theorem test_xor : (after (((base 0x200 0x8013).setV 0 0xF0).setV 1 0x3C)).getV 0 = 0xCC := by decide

theorem test_addReg :
    (after (((base 0x200 0x8014).setV 0 0xFF).setV 1 0xFF)).getV 0 = 0xFE ∧
    (after (((base 0x200 0x8014).setV 0 0xFF).setV 1 0xFF)).getV 0xF = 1 ∧
    (after (((base 0x200 0x8014).setV 0 0x80).setV 1 0x7F)).getV 0xF = 0 := by decide

/-- VF as destination and as second operand. -/
theorem test_addReg_vf :
    (after ((base 0x200 0x8FF4).setVF 0xFF)).getV 0xF = 1 ∧
    (after (((base 0x200 0x8F14).setVF 1).setV 1 1)).getV 0xF = 0 ∧
    (after (((base 0x200 0x80F4).setV 0 0x10).setVF 0xF5)).getV 0 = 0x05 ∧
    (after (((base 0x200 0x80F4).setV 0 0x10).setVF 0xF5)).getV 0xF = 1 := by decide

theorem test_sub :
    (after (((base 0x200 0x8015).setV 0 5).setV 1 5)).getV 0xF = 1 ∧
    (after (((base 0x200 0x8015).setV 0 0).setV 1 1)).getV 0 = 0xFF ∧
    (after (((base 0x200 0x8015).setV 0 0).setV 1 1)).getV 0xF = 0 := by decide

theorem test_subn :
    (after (((base 0x200 0x8017).setV 0 3).setV 1 0xA)).getV 0 = 7 ∧
    (after (((base 0x200 0x8017).setV 0 3).setV 1 0xA)).getV 0xF = 1 ∧
    (after (((base 0x200 0x8017).setV 0 1).setV 1 0)).getV 0 = 0xFF ∧
    (after (((base 0x200 0x8017).setV 0 1).setV 1 0)).getV 0xF = 0 := by decide

theorem test_shr :
    (after (((base 0x200 0x8016).setV 0 5).setV 1 0x80)).getV 0 = 2 ∧
    (after (((base 0x200 0x8016).setV 0 5).setV 1 0x80)).getV 0xF = 1 ∧
    (after ((base 0x200 0x8FF6).setVF 3)).getV 0xF = 1 := by decide

/-- SHIFT_SOURCE = VY, the other value of the parameter. -/
theorem test_shift_vy :
    (after ((((base 0x200 0x8016).setV 0 5).setV 1 0x80).withShiftSource .vy)).getV 0 = 0x40 ∧
    (after ((((base 0x200 0x8016).setV 0 5).setV 1 0x80).withShiftSource .vy)).getV 0xF = 0 ∧
    (after ((((base 0x200 0x801E).setV 0 5).setV 1 0x80).withShiftSource .vy)).getV 0 = 0x00 ∧
    (after ((((base 0x200 0x801E).setV 0 5).setV 1 0x80).withShiftSource .vy)).getV 0xF = 1 := by decide

theorem test_shl :
    (after ((base 0x200 0x800E).setV 0 0x81)).getV 0 = 2 ∧
    (after ((base 0x200 0x800E).setV 0 0x81)).getV 0xF = 1 ∧
    (after ((base 0x200 0x800E).setV 0 0x7F)).getV 0 = 0xFE ∧
    (after ((base 0x200 0x800E).setV 0 0x7F)).getV 0xF = 0 := by decide

/-- A draw masked by 0 is 0, whatever the draw is; the draw is used up and PC moves on. -/
theorem test_rnd :
    (after (base 0x200 0xC300)).getV 3 = 0 ∧ (after (base 0x200 0xC300)).draws = 1 ∧
    (after (base 0x200 0xC300)).pc = 0x202 := by
  refine ⟨BitVec.and_zero, rfl, rfl⟩

/-- W6. -/
theorem test_ldI : (after (base 0x202 0xA20A)).i = 0x20A ∧ (after (base 0x202 0xA20A)).pc = 0x204 := by decide

theorem test_addI :
    (after (((base 0x200 0xF01E).setI 0xFFFF).setV 0 1)).i = 0 ∧
    (after (((base 0x200 0xF01E).setI 0x0FFF).setV 0 1)).i = 0x1000 := by decide

/-- The last digit, and the first value that is none. -/
theorem test_ldF :
    (after ((base 0x200 0xF029).setV 0 0xF)).i.toNat = fontBase + 75 ∧
    answer ((base 0x200 0xF029).setV 0 0x10) = .err (.digitOutOfRange 0xF029 0x200) :=
  ⟨glyphAddress_toNat 0xF, rfl⟩

/-- W5, and the last byte of memory. -/
theorem test_ldB :
    Memory.read (after (((base 0x200 0xF433).setV 4 157).setI 0x400)).mem 0x400 = 1 ∧
    Memory.read (after (((base 0x200 0xF433).setV 4 157).setI 0x400)).mem 0x401 = 5 ∧
    Memory.read (after (((base 0x200 0xF433).setV 4 157).setI 0x400)).mem 0x402 = 7 ∧
    answer ((base 0x200 0xF033).setI 0xFFD) = .ok ∧
    answer ((base 0x200 0xF033).setI 0xFFE) = .err (.memoryOutOfRange (some 0xF033) 0x200) := by decide

/-- Self-modifying code: the word stored over the next instruction is fetched next. -/
theorem test_ldMem :
    Memory.read (after ((((base 0x200 0xF155).setV 0 0x12).setV 1 0x02).setI 0x202)).mem 0x202 = 0x12 ∧
    Memory.read (after ((((base 0x200 0xF155).setV 0 0x12).setV 1 0x02).setI 0x202)).mem 0x204 = 0 ∧
    fetch (after ((((base 0x200 0xF155).setV 0 0x12).setV 1 0x02).setI 0x202)) = some 0x1202 := by decide

/-- No 16-bit wrap of I + k. -/
theorem test_ldMem_range :
    answer ((base 0x200 0xFF55).setI 0xFF0) = .ok ∧
    answer ((base 0x200 0xFF55).setI 0xFF1) = .err (.memoryOutOfRange (some 0xFF55) 0x200) ∧
    answer ((base 0x200 0xF055).setI 0xFFFF) = .err (.memoryOutOfRange (some 0xF055) 0x200) := by decide

theorem test_ldVxMem :
    (after (holding 0x300 [7, 8, 9] ((base 0x200 0xF265).setI 0x300))).getV 2 = 9 ∧
    (after (holding 0x300 [7, 8, 9] ((base 0x200 0xF265).setI 0x300))).getV 0 = 7 ∧
    (after (holding 0x300 [7, 8, 9] (((base 0x200 0xF265).setI 0x300).setV 3 5))).getV 3 = 5 ∧
    (after (holding 0x300 [7, 8, 9] ((base 0x200 0xF265).setI 0x300))).i = 0x300 := by decide

theorem test_ldVxMem_range :
    (after (holding 0xFFF [0xAB] ((base 0x200 0xF065).setI 0xFFF))).getV 0 = 0xAB ∧
    answer ((base 0x200 0xF165).setI 0xFFF) = .err (.memoryOutOfRange (some 0xF165) 0x200) := by decide

theorem test_cls :
    (after (lit 5 5 (base 0x200 0x00E0))).fb.pixel 5 5 = false ∧ (after (base 0x200 0x00E0)).redraw = true := by
  decide

/-- A row wraps at column 63, and the start position wraps. -/
theorem test_drw_wraps :
    (after (holding 0x300 [0xFF] (((base 0x200 0xD011).setV 0 60).setI 0x300))).fb.pixel 63 0 = true ∧
    (after (holding 0x300 [0xFF] (((base 0x200 0xD011).setV 0 60).setI 0x300))).fb.pixel 3 0 = true ∧
    (after (holding 0x300 [0xFF] (((base 0x200 0xD011).setV 0 60).setI 0x300))).fb.pixel 4 0 = false ∧
    (after (holding 0x300 [0x80]
      ((((base 0x200 0xD011).setV 0 0xFF).setV 1 0xFF).setI 0x300))).fb.pixel 63 31 = true := by decide

/-- A collision, no collision, and a coordinate read from VF before VF is written. -/
theorem test_drw_vf :
    (after (lit 1 0 (holding 0x300 [0xC0] ((base 0x200 0xD011).setI 0x300)))).getV 0xF = 1 ∧
    (after (lit 1 0 (holding 0x300 [0xC0] ((base 0x200 0xD011).setI 0x300)))).fb.pixel 1 0 = false ∧
    (after (lit 2 0 (holding 0x300 [0xC0] ((base 0x200 0xD011).setI 0x300)))).getV 0xF = 0 ∧
    (after (holding 0x300 [0x80] (((base 0x200 0xDF11).setVF 10).setI 0x300))).fb.pixel 10 0 = true := by decide

theorem test_skp :
    (after (((base 0x200 0xE09E).setV 0 5).setKeyLatch 5 true)).pc = 0x204 ∧
    (after ((base 0x200 0xE09E).setV 0 5)).pc = 0x202 ∧
    answer ((base 0x200 0xE09E).setV 0 0x10) = .err (.keyOutOfRange 0xE09E 0x200) := by decide

theorem test_sknp :
    (after (((base 0x200 0xE0A1).setV 0 5).setKeyLatch 5 true)).pc = 0x202 ∧
    (after ((base 0x200 0xE0A1).setV 0 5)).pc = 0x204 ∧
    answer ((base 0x200 0xE0A1).setV 0 0xFF) = .err (.keyOutOfRange 0xE0A1 0x200) := by decide

theorem test_ldVxDt : (after ((base 0x200 0xF307).setDt 0x3C)).getV 3 = 0x3C := by decide

theorem test_ldDtVx : (after ((base 0x200 0xF315).setV 3 0x3C)).dt = 0x3C := by decide

theorem test_ldStVx :
    (after ((base 0x200 0xF318).setV 3 1)).st = 1 ∧ (tickTimers (after ((base 0x200 0xF318).setV 3 1))).2 = true := by
  decide

theorem test_ldVxK : (after (base 0x200 0xF50A)).kw = .waiting 5 ∧ (after (base 0x200 0xF50A)).pc = 0x200 := by
  decide

/-- W7: the press is captured and the next step completes the wait. -/
theorem test_keyWait :
    (transactAll [.step, .setKey 0xB true, .setKey 2 true, .step] (base 0x200 0xF30A)).getV 3 = 0x0B ∧
    (transactAll [.step, .setKey 0xB true, .step] (base 0x200 0xF30A)).pc = 0x202 ∧
    (transactAll [.setKey 4 true, .step, .step] (base 0x200 0xF50A)).kw = .waiting 5 := by decide

/-- W4: the third tick of ST = 3 beeps, once. -/
theorem test_ticks :
    (tickTimes 2 ((base 0x200 0).setSt 3)).2 = 0 ∧ (tickTimes 3 ((base 0x200 0).setSt 3)).2 = 1 ∧
    (tickTimes 5 ((base 0x200 0).setSt 3)).2 = 1 ∧ (tickTimes 5 ((base 0x200 0).setDt 2)).1.dt = 0 := by decide

/-! ## Part 4: states and operands that meet the hypotheses of the obligations

One theorem per obligation with hypotheses, the obligation's name in its own; a conjunct per clause, at a boundary
value where the clause has a range. -/

/-- For EncodeOfDecodeIsTheWord as well. -/
theorem witness_DecodingFollowsTheOpcodeMap :
    decode 0x8AB6 = some (.shr 0xA 0xB) ∧ wordWellFormed 0x8AB8 = false ∧
    (∃ row ∈ opcodeRows, row.admits 0x8AB6 = true) := by decide

theorem witness_StepRunsTheDecodedInstruction :
    (base 0xFFE 0x1FFE).kw = .notWaiting ∧ (base 0xFFE 0x1FFE).pc.toNat ≤ 0xFFE ∧
    decode (Memory.read (base 0xFFE 0x1FFE).mem 0xFFE ++ Memory.read (base 0xFFE 0x1FFE).mem 0xFFF : Word) =
      some (.jp 0xFFE) := by decide

theorem witness_UnrecognizedWordRaises :
    (base 0x200 0x5121).kw = .notWaiting ∧ fetch (base 0x200 0x5121) = some 0x5121 ∧
    wordWellFormed 0x5121 = false ∧ fetch (base 0xFFE 0x5120) = some 0x5120 ∧ wordWellFormed 0x5120 = true := by
  decide

theorem witness_StepDuringKeyWait :
    ((base 0x200 0xFF0A).setKw (.waiting 0xF)).kw = .waiting 0xF ∧
    ((base 0x200 0xFF0A).setKw (.captured 0xF 0xB)).kw = .captured 0xF 0xB := by decide

theorem witness_ProgramCounterAfterStep :
    (∃ t, exec (.seImm 3 0) (base 0x200 0x3300) = .next t) ∧
    (∃ t, ((base 0x200 0xF50A).setKw (.waiting 5)).kw = .waiting 5 ∧
      step ((base 0x200 0xF50A).setKw (.waiting 5)) = .next t) ∧
    (∃ t, ((base 0x200 0xF50A).setKw (.captured 5 0xF)).kw = .captured 5 0xF ∧
      step ((base 0x200 0xF50A).setKw (.captured 5 0xF)) = .next t) ∧
    step (base 0x200 0x0000) = .fault (.unrecognizedOpcode 0 0x200) :=
  ⟨⟨_, rfl⟩, ⟨_, rfl, rfl⟩, ⟨_, rfl, rfl⟩, rfl⟩

/-- Each error of the table, and the largest values that raise none. -/
theorem witness_InstructionsFailExactlyWhenTheTableSays :
    errorOf (.call 0x300) (stacked 16 0x202 (base 0x200 0x2300)) = some (.stackOverflow 0x2300 0x200) ∧
    errorOf (.call 0x300) (stacked 15 0x202 (base 0x200 0x2300)) = none ∧
    errorOf .ret (base 0x200 0x00EE) = some (.stackUnderflow 0x00EE 0x200) ∧
    errorOf (.drw 0 1 2) ((base 0x200 0xD012).setI 0xFFF) = some (.memoryOutOfRange (some 0xD012) 0x200) ∧
    errorOf (.drw 0 1 0) ((base 0x200 0xD010).setI 0xFFFF) = none ∧
    errorOf (.ldBVx 0) ((base 0x200 0xF033).setI 0xFFE) = some (.memoryOutOfRange (some 0xF033) 0x200) ∧
    errorOf (.ldMemVx 0xF) ((base 0x200 0xFF55).setI 0xFF1) = some (.memoryOutOfRange (some 0xFF55) 0x200) ∧
    errorOf (.ldVxMem 1) ((base 0x200 0xF165).setI 0xFFE) = none ∧
    errorOf (.skp 0) ((base 0x200 0xE09E).setV 0 0x10) = some (.keyOutOfRange 0xE09E 0x200) ∧
    errorOf (.sknp 0) ((base 0x200 0xE0A1).setV 0 0xF) = none ∧
    errorOf (.ldFVx 0) ((base 0x200 0xF029).setV 0 0x10) = some (.digitOutOfRange 0xF029 0x200) := by decide

/-- Each of the three places an error comes from. -/
theorem witness_StepErrorsInPriorityOrder :
    step { base 0x200 0 with pc := 0xFFF } = .fault (.memoryOutOfRange none 0xFFF) ∧
    step (base 0xFFE 0x0123) = .fault (.unrecognizedOpcode 0x0123 0xFFE) ∧
    step (base 0xFFE 0x00EE) = .fault (.stackUnderflow 0x00EE 0xFFE) := ⟨rfl, rfl, rfl⟩

theorem witness_ErrorsRecordWordAndPc :
    step (base 0xFFE 0x0123) = .fault (.unrecognizedOpcode 0x0123 0xFFE) ∧
    hostLoad (List.replicate 3585 0) State.reset = .fault (.romTooLarge 3585) := by
  refine ⟨rfl, ?_⟩
  rw [hostLoad, if_pos (by simp only [List.length_replicate, Config.maxRom]; decide), List.length_replicate]

theorem witness_EndStatesPersist :
    Stopped (base 0xFFE 0x1FFE) ∧ Waiting ((base 0x200 0xF50A).setKw (.waiting 5)) ∧
    step (base 0x200 0x0000) = .fault (.unrecognizedOpcode 0 0x200) :=
  ⟨⟨rfl, by decide, by decide⟩, ⟨5, rfl⟩, rfl⟩

theorem witness_StepsLeaveTimersAndLatches :
    (∃ t, step ((base 0x200 0xF315).setV 3 0xFF) = .next t ∧ t.dt ≠ ((base 0x200 0xF315).setV 3 0xFF).dt) ∧
    ∃ t, step ((base 0x200 0xF318).setV 3 1) = .next t ∧ t.st ≠ ((base 0x200 0xF318).setV 3 1).st :=
  ⟨⟨_, rfl, by decide⟩, ⟨_, rfl, by decide⟩⟩

theorem witness_RetPopsTheReturnAddress :
    0 < (stacked 1 0x202 (base 0x300 0x00EE)).sp.val ∧ (stacked 16 0x202 (base 0x300 0x00EE)).sp.val = 16 ∧
    (base 0x300 0x00EE).sp.val = 0 := by decide

theorem witness_JpSetsPc :
    (base 0x200 0x1200).pc.toNat = (0x200 : Addr12).toNat ∧ (base 0x200 0x1FFF).kw = .notWaiting ∧
    ∃ t, exec (.jp 0xFFF) (base 0x200 0x1FFF) = .next t := ⟨by decide, rfl, ⟨_, rfl⟩⟩

theorem witness_CallPushesTheReturnAddress :
    (stacked 15 0x202 (base 0x200 0x2300)).sp.val < 16 ∧ (0 : Fin 16).val ≠ 15 ∧
    (stacked 16 0x202 (base 0x200 0x2300)).sp.val = 16 := by decide

/-- From the deepest level at which a call succeeds, to the last word of memory. -/
theorem witness_CallThenReturnComesBack :
    (holding 0xFFE [0x00, 0xEE] (stacked 15 0x202 (base 0x200 0x2FFE))).kw = .notWaiting ∧
    (holding 0xFFE [0x00, 0xEE] (stacked 15 0x202 (base 0x200 0x2FFE))).sp.val ≤ 15 ∧
    (0xFFE : Addr12).toNat ≤ 0xFFE ∧
    fetch (holding 0xFFE [0x00, 0xEE] (stacked 15 0x202 (base 0x200 0x2FFE))) = some (encode (.call 0xFFE)) ∧
    Memory.read (holding 0xFFE [0x00, 0xEE] (stacked 15 0x202 (base 0x200 0x2FFE))).mem 0xFFE = 0x00 ∧
    Memory.read (holding 0xFFE [0x00, 0xEE] (stacked 15 0x202 (base 0x200 0x2FFE))).mem 0xFFF = 0xEE := by decide

theorem witness_RegisterSkips :
    ((base 0x200 0x3310).setV 3 0x10).getV 3 = 0x10 ∧ ((base 0x200 0x3310).setV 3 0x11).getV 3 ≠ 0x10 ∧
    (base 0x200 0x5FF0).getV 0xF = (base 0x200 0x5FF0).getV 0xF ∧
    ((base 0x200 0x9120).setV 1 7).getV 1 ≠ ((base 0x200 0x9120).setV 1 7).getV 2 ∧
    opOf 0x5121 = 0x5 ∧ nOf 0x5121 ≠ 0 ∧ opOf 0x912F = 0x9 ∧ nOf 0x912F ≠ 0 ∧
    { base 0x200 0 with pc := 0xFFF }.kw = .notWaiting ∧ 0xFFE < { base 0x200 0 with pc := 0xFFF }.pc.toNat := by
  decide

/-- For AddRegSetsCarry, SubSetsNoBorrow, SubnSetsNoBorrow, ShrShiftsOutBitZero and ShlShiftsOutBitSeven: a
destination that is not VF, and each side of each flag at its boundary. -/
theorem witness_flag_clauses :
    ((0xE : Reg) ≠ 0xF) ∧
    ((((base 0x200 0x8014).setV 0 0xFF).setV 1 1).getV 0).toNat +
      ((((base 0x200 0x8014).setV 0 0xFF).setV 1 1).getV 1).toNat > 0xFF ∧
    ¬ ((((base 0x200 0x8014).setV 0 0xFE).setV 1 1).getV 0).toNat +
      ((((base 0x200 0x8014).setV 0 0xFE).setV 1 1).getV 1).toNat > 0xFF ∧
    ((base 0x200 0x8015).getV 0).toNat ≥ ((base 0x200 0x8015).getV 1).toNat ∧
    ¬ (((base 0x200 0x8015).setV 1 1).getV 0).toNat ≥ (((base 0x200 0x8015).setV 1 1).getV 1).toNat := by decide

/-- For ShrShiftsOutBitZero and ShlShiftsOutBitSeven: the shifted register under each value of SHIFT_SOURCE. -/
theorem witness_shift_sources :
    (((base 0x200 0x8016).setV 0 5).shiftSource = .vx ∧ (5 : Byte) = ((base 0x200 0x8016).setV 0 5).getV 0) ∧
    ((((base 0x200 0x8016).setV 1 0x80).withShiftSource .vy).shiftSource = .vy ∧
      (0x80 : Byte) = (((base 0x200 0x8016).setV 1 0x80).withShiftSource .vy).getV 1) := by decide

theorem witness_RndMasksAFreshDraw :
    (7 < 8) ∧ (0x0F : Byte).getLsbD 7 = false ∧ (0x0F : Byte).getLsbD 0 = true := by decide

theorem witness_FlagWritersLeaveZeroOrOneInVf :
    (∃ t, exec (.addReg 0xF 1) (base 0x200 0x8F14) = .next t) ∧ (∃ t, exec (.sub 0 1) (base 0x200 0x8015) = .next t) ∧
    (∃ t, exec (.shr 0 1) (base 0x200 0x8016) = .next t) ∧ (∃ t, exec (.subn 0 1) (base 0x200 0x8017) = .next t) ∧
    (∃ t, exec (.shl 0 1) (base 0x200 0x801E) = .next t) ∧
    ∃ t, exec (.drw 0 1 1) ((base 0x200 0xD011).setI 0xFFF) = .next t :=
  ⟨⟨_, rfl⟩, ⟨_, rfl⟩, ⟨_, rfl⟩, ⟨_, rfl⟩, ⟨_, rfl⟩, ⟨_, rfl⟩⟩

/-- An unread register of an instruction that raises, of one that writes it, and of one that does not. -/
theorem witness_UnreadRegistersCannotMatter :
    (¬ readsReg .vx (.skp 0) 1 ∧
      exec (.skp 0) ((base 0x200 0xE09E).setV 0 0x10) = .fault (.keyOutOfRange 0xE09E 0x200)) ∧
    (¬ readsReg .vx (.ldImm 3 7) 3 ∧ writesReg (.ldImm 3 7) 3 ∧ ∃ t, exec (.ldImm 3 7) (base 0x200 0x6307) = .next t) ∧
    (¬ readsReg .vx (.ldMemVx 2) 3 ∧ ¬ writesReg (.ldMemVx 2) 3 ∧
      ∃ t, exec (.ldMemVx 2) ((base 0x200 0xF255).setI 0x300) = .next t) ∧
    (¬ readsReg .vy (.shr 0 1) 0 ∧ writesReg (.shr 0 1) 0 ∧
      ∃ t, exec (.shr 0 1) ((base 0x200 0x8016).withShiftSource .vy) = .next t) :=
  ⟨⟨by simp [readsReg], rfl⟩, ⟨by simp [readsReg], by simp [writesReg], ⟨_, rfl⟩⟩,
    ⟨by simp only [readsReg]; decide, by simp [writesReg], ⟨_, rfl⟩⟩,
    ⟨by simp [readsReg], by simp [writesReg], ⟨_, rfl⟩⟩⟩

theorem witness_LdFPointsAtTheGlyph :
    (((base 0x200 0xF029).setV 0 0xF).getV 0).toNat ≤ 0xF ∧
    0xF < (((base 0x200 0xF029).setV 0 0x10).getV 0).toNat := by decide

theorem witness_GlyphsCanAlwaysBeDrawn :
    State.reset.mem = State.create.mem ∧ ((State.reset.setV 0 0xF).getV 0).toNat = (0xF : Fin 16).val ∧
    ∃ t, exec (.ldFVx 0) (State.reset.setV 0 0xF) = .next t := ⟨rfl, by decide, ⟨_, rfl⟩⟩

theorem witness_LdBStoresDecimalDigits :
    ((base 0x200 0xF033).setI 0xFFD).i.toNat + 2 ≤ 0xFFF ∧ ((base 0x200 0xF033).setI 0xFFE).i.toNat + 2 > 0xFFF := by
  decide

/-- For LdMemStoresRegisters and LdVxMemLoadsRegisters. -/
theorem witness_block_transfers :
    ((base 0x200 0xFF55).setI 0xFF0).i.toNat + (0xF : Reg).val ≤ 0xFFF ∧
    ((base 0x200 0xFF55).setI 0xFF1).i.toNat + (0xF : Reg).val > 0xFFF ∧ (0xF : Reg) ≤ 0xF := by decide

theorem witness_BlockStoreThenLoadRestores :
    ∃ t, exec (.ldMemVx 0xF) ((base 0x200 0xFF55).setI 0xFF0) = .next t ∧
      (∀ a, Memory.read t.mem a = Memory.read t.mem a) ∧ t.i = ((base 0x200 0xFF55).setI 0xFF0).i :=
  ⟨_, rfl, fun _ => rfl, rfl⟩

theorem witness_StoredInstructionRunsNext :
    ((((base 0xFFC 0xF155).setV 0 0x12).setV 1 0x02).setI 0xFFE).kw = .notWaiting ∧
    fetch ((((base 0xFFC 0xF155).setV 0 0x12).setV 1 0x02).setI 0xFFE) = some (encode (.ldMemVx 1)) ∧
    (base 0xFFC 0xF155).pc.toNat + 2 ≤ 0xFFE ∧ (0xFFE : Word) = (base 0xFFC 0xF155).pc + 2 ∧
    (∃ t, step ((((base 0xFFC 0xF155).setV 0 0x12).setV 1 0x02).setI 0xFFE) = .next t) ∧
    decode (bigEndian 0x12 0x02) = some (.jp 0x202) :=
  ⟨rfl, by decide, by decide, by decide, ⟨_, rfl⟩, by decide⟩

theorem witness_OnlyStoresChangeMemory :
    (∃ t, step (((base 0x200 0xF033).setV 0 9).setI 0x400) = .next t ∧ Memory.read t.mem 0x402 ≠ 0) ∧
    ∃ t, step (((base 0x200 0xF055).setV 0 9).setI 0xFFF) = .next t ∧ Memory.read t.mem 0xFFF ≠ 0 :=
  ⟨⟨_, rfl, by decide⟩, ⟨_, rfl, by decide⟩⟩

/-- A sprite at the last byte of memory, a pixel it covers and one it does not, a hit and none; n = 0 at the top of
I's range; and a sprite that runs over the end. -/
theorem witness_DrwFlipsTheSpritePixels :
    ((0 : RowCount).val = 0 ∧ ((base 0x200 0xD010).setI 0xFFFF).i = 0xFFFF) ∧
    ((base 0x200 0xD011).setI 0xFFF).i.toNat + (1 : RowCount).val - 1 ≤ 0xFFF ∧
    SpriteCovers (holding 0xFFF [0x80] ((base 0x200 0xD011).setI 0xFFF)) 63 31 1 63 31 ∧
    ¬ SpriteCovers (holding 0xFFF [0x80] ((base 0x200 0xD011).setI 0xFFF)) 63 31 0 63 31 ∧
    (lit 63 31 (base 0x200 0xD011)).fb.pixel 63 31 = true ∧ (base 0x200 0xD011).fb.pixel 63 31 = false ∧
    (2 : RowCount).val > 0 ∧ ((base 0x200 0xD012).setI 0xFFF).i.toNat + (2 : RowCount).val - 1 > 0xFFF := by
  refine ⟨by decide, by decide, ⟨0, by decide, 0, by decide, by decide, by decide, by decide⟩, ?_, by decide, by decide,
    by decide, by decide⟩
  rintro ⟨r, hr, -⟩
  omega

/-- A second draw after a first one, over a blank region. -/
theorem witness_DrawingTwiceRestoresTheFrame :
    ∃ t, exec (.drw 0 1 1) ((base 0x200 0xD011).setI 0xFFF) = .next t ∧ t.i = 0xFFF ∧ t.getV 0 = 0 ∧ t.getV 1 = 0 ∧
      (∀ r < 1, Memory.read t.mem (0xFFF + r) = Memory.read (base 0x200 0xD011).mem (0xFFF + r)) ∧
      ∀ c q, (base 0x200 0xD011).fb.pixel c q = false :=
  ⟨_, rfl, rfl, rfl, rfl, fun _ _ => rfl, by simp [base, State.create, Frame.pixel]⟩

theorem witness_RedrawFollowsTheDisplay :
    (base 0x200 0x00E0).kw = .notWaiting ∧ fetch (base 0x200 0x00E0) = some 0x00E0 ∧ decode 0x00E0 = some .cls ∧
    (∃ t, step (base 0x200 0x00E0) = .next t ∧ t.redraw ≠ (base 0x200 0x00E0).redraw) ∧
    ∃ t, step ((base 0x200 0x6000).setRedraw true) = .next t ∧ ((base 0x200 0x6000).setRedraw true).redraw = true :=
  ⟨rfl, by decide, by decide, ⟨_, rfl, by decide⟩, ⟨_, rfl, rfl⟩⟩

theorem witness_KeySkipsReadTheLatch :
    (((base 0x200 0xE09E).setV 0 0xF).getV 0).toNat = (0xF : Key).val ∧
    0xF < (((base 0x200 0xE09E).setV 0 0x10).getV 0).toNat := by decide

theorem witness_KeyWaitLifecycle :
    (∃ t, exec (.ldVxK 5) (base 0x200 0xF50A) = .next t) ∧
    (∀ op ∈ [HostOp.step, .tickTimers, .setKey 3 false, .load [0x12], .clearRedrawPending], LeavesKeyWait op) ∧
    (0 : Reg) ≠ 5 := by
  refine ⟨⟨_, rfl⟩, ?_, by decide⟩
  simp [LeavesKeyWait]

theorem witness_SetKeyLatchesAndCaptures :
    ((base 0x200 0xF50A).setKw (.waiting 5)).kw = .waiting 5 ∧
    ¬ ∃ x, ((base 0x200 0xF50A).setKw (.captured 5 1)).kw = .waiting x := by
  refine ⟨rfl, ?_⟩
  rintro ⟨x, h⟩
  cases h

theorem witness_LoadWritesTheProgram :
    (List.replicate 3584 (0xAA : Byte)).length ≤ 3584 ∧ (List.replicate 3585 (0xAA : Byte)).length > 3584 ∧
    3583 < (List.replicate 3584 (0xAA : Byte)).length := by
  simp only [List.length_replicate]
  decide

/-- The first address past the font, and the first of program memory, whatever FONT_BASE is. -/
theorem witness_CreateLeavesTheListedValues :
    (fontBase + 80 < fontBase ∨ fontBase + 80 ≤ fontBase + 80) ∧ (0x200 < fontBase ∨ fontBase + 80 ≤ 0x200) := by
  have := fontBase_le
  simp only [fontStride, Config.fontStride, Config.progStart] at this
  omega

theorem witness_ResetLeavesTheListedValues : 0x1FF < 0x200 ∧ 3583 < 3584 := by decide

theorem witness_HostOperationsWriteOnlyTheirColumn :
    HostOp.load [0x12] ≠ .create ∧ HostOp.load [0x12] ≠ .step ∧ HostOp.load [0x12] ≠ .reset := by decide

/-- A state with a return address in use and a key-wait started by the step. -/
theorem witness_StepKeepsTheInvariants :
    Inv (stacked 1 0x1000 (base 0xFFE 0xF50A)) ∧ KeyWaitStandsOnItsInstruction (stacked 1 0x1000 (base 0xFFE 0xF50A)) ∧
    ∃ t, step (stacked 1 0x1000 (base 0xFFE 0xF50A)) = .next t := by
  refine ⟨⟨by decide, by decide, by decide, by decide⟩, ?_, ⟨_, rfl⟩⟩
  rintro x (h | ⟨k, h⟩) <;> cases h

theorem witness_HostOperationsKeepTheInvariants : Inv State.reset :=
  ⟨rfl, by decide, by decide, by decide⟩

/-- Two states that differ in ST, in REDRAW and in a slot that is not in use, stepping and failing. -/
theorem witness_ProgramsCannotSeeSoundRedrawOrStaleSlots :
    SameToPrograms (base 0x200 0x6A42) (((stacked 0 0x300 (base 0x200 0x6A42)).setSt 9).setRedraw true) ∧
    (∃ t, step (base 0x200 0x6A42) = .next t) ∧
    SameToPrograms (base 0x200 0x00EE) ((stacked 0 0x300 (base 0x200 0x00EE)).setSt 9) ∧
    step (base 0x200 0x00EE) = .fault (.stackUnderflow 0x00EE 0x200) := by
  refine ⟨⟨rfl, rfl, rfl, rfl, rfl, ?_, rfl, rfl, rfl, rfl, rfl, rfl⟩, ⟨_, rfl⟩,
    ⟨rfl, rfl, rfl, rfl, rfl, ?_, rfl, rfl, rfl, rfl, rfl, rfl⟩, rfl⟩
  · intro k hk
    simp [base, State.create] at hk
  · intro k hk
    simp [base, State.create] at hk

end Sys2Proof.Tests
end

section
/-! What the two sides of a noninterference statement have in common: two answers that agree on an error, or on next
states up to a relation. -/

namespace Sys2Proof.Machine

/-- Two answers are the same error, or two next states in the relation. -/
inductive OutcomeRel (R : State → State → Prop) : Result → Result → Prop where
  | next {s t : State} (h : R s t) : OutcomeRel R (.next s) (.next t)
  | fault (f : Fault) : OutcomeRel R (.fault f) (.fault f)

theorem OutcomeRel.eq_fault {R : State → State → Prop} {p q : Result} {f : Fault} (h : OutcomeRel R p q)
    (hp : p = .fault f) : q = .fault f := by
  cases h with
  | next _ => cases hp
  | fault _ => exact hp

theorem OutcomeRel.exists_next {R : State → State → Prop} {p q : Result} {s : State} (h : OutcomeRel R p q)
    (hp : p = .next s) : ∃ t, q = .next t ∧ R s t := by
  cases h with
  | next hR => cases hp; exact ⟨_, rfl, hR⟩
  | fault _ => cases hp

/-! RET and CALL where SP is known: the cases of `exec_ret_cases` and `exec_call_cases`. -/

theorem exec_ret_used (s : State) (h : 0 < s.sp.val) : exec .ret s =
    .next (State.setPc { s with sp := ⟨s.sp.val - 1, by omega⟩ } (s.stack[s.sp.val - 1]'(by omega))) :=
  (exec_ret_cases s).elim (fun ⟨_, e⟩ => e) fun ⟨h0, _⟩ => absurd h0 (Nat.ne_of_gt h)

theorem exec_ret_empty (s : State) (h : s.sp.val = 0) : exec .ret s = .fault (.stackUnderflow (encode .ret) s.pc) :=
  (exec_ret_cases s).elim (fun ⟨hpos, _⟩ => absurd h (Nat.ne_of_gt hpos)) And.right

theorem exec_call_free (nnn : Addr12) (s : State) (h : s.sp.val < 16) : exec (.call nnn) s =
    .next (State.setPc { s with stack := s.stack.set s.sp.val (s.pc + 2) h, sp := ⟨s.sp.val + 1, by omega⟩ }
      (addrOperand nnn)) :=
  (exec_call_cases nnn s).elim (fun ⟨_, e⟩ => e) fun ⟨hfull, _⟩ => absurd hfull (Nat.ne_of_lt h)

theorem exec_call_full (nnn : Addr12) (s : State) (h : 16 ≤ s.sp.val) :
    exec (.call nnn) s = .fault (.stackOverflow (encode (.call nnn)) s.pc) :=
  (exec_call_cases nnn s).elim (fun ⟨hfree, _⟩ => absurd h (Nat.not_le_of_lt hfree)) And.right

end Sys2Proof.Machine
end

section
/-! What a program cannot see (10_state.md R41, R42, R50): ST, REDRAW and stack slots not in use. -/

namespace Sys2Proof.Machine

/-- The state with other values in the components a program cannot see, the whole stack among them. -/
def State.withUnseen (s : State) (st : Byte) (redraw : Bool) (stack : Vector Word 16) : State :=
  { s with st := st, redraw := redraw, stack := stack }

/-- A stack that holds the state's return addresses in the slots in use. -/
def State.HoldsStack (s : State) (stack : Vector Word 16) : Prop :=
  ∀ k : Fin 16, k.val < s.sp.val → s.stack[k] = stack[k]

section
variable {s t : State} {st : Byte} {redraw : Bool} {stack : Vector Word 16}

theorem SameToPrograms.withUnseen (h : s.HoldsStack stack) : SameToPrograms s (s.withUnseen st redraw stack) :=
  ⟨rfl, rfl, rfl, rfl, rfl, h, rfl, rfl, rfl, rfl, rfl, rfl⟩

/-- States a program cannot tell apart are one state with other unseen components. -/
theorem SameToPrograms.exists_withUnseen (h : SameToPrograms s t) :
    ∃ st redraw stack, s.HoldsStack stack ∧ t = s.withUnseen st redraw stack := by
  obtain ⟨hmem, hv, hi, hpc, hsp, hstack, hdt, hkeys, hkw, hfb, hsrc, hdraws⟩ := h
  refine ⟨t.st, t.redraw, t.stack, hstack, ?_⟩
  simp only [State.withUnseen, hmem, hv, hi, hpc, hsp, hdt, hkeys, hkw, hfb, hsrc, hdraws]

/-- A push writes the same address to the same slot of both stacks, so a stale value there is lost in both. -/
theorem State.HoldsStack.push (h : s.HoldsStack stack) (ret : Word) (hs : s.sp.val < 16) :
    State.HoldsStack { s with stack := s.stack.set s.sp.val ret hs, sp := ⟨s.sp.val + 1, by omega⟩ }
      (stack.set s.sp.val ret hs) := by
  intro k hk
  by_cases he : s.sp.val = k.val
  · simp [he]
  · have := h k (by simp only at hk; omega)
    simpa [Vector.getElem_set_ne, he] using this

theorem exec_ret_withUnseen (h : s.HoldsStack stack) :
    OutcomeRel SameToPrograms (exec .ret s) (exec .ret (s.withUnseen st redraw stack)) := by
  rcases Nat.eq_zero_or_pos s.sp.val with hs | hs
  · rw [exec_ret_empty s hs, exec_ret_empty (s.withUnseen st redraw stack) hs]
    exact .fault _
  · have htop : s.stack[s.sp.val - 1] = stack[s.sp.val - 1] := h ⟨s.sp.val - 1, by omega⟩ (by simp only; omega)
    rw [exec_ret_used s hs, exec_ret_used (s.withUnseen st redraw stack) hs, htop]
    exact .next (.withUnseen fun k hk => h k (Nat.lt_of_lt_of_le hk (Nat.sub_le _ _)))

theorem exec_call_withUnseen (h : s.HoldsStack stack) (nnn : Addr12) :
    OutcomeRel SameToPrograms (exec (.call nnn) s) (exec (.call nnn) (s.withUnseen st redraw stack)) := by
  rcases Nat.lt_or_ge s.sp.val 16 with hs | hs
  · rw [exec_call_free nnn s hs, exec_call_free nnn (s.withUnseen st redraw stack) hs]
    exact .next (.withUnseen (h.push (s.pc + 2) hs))
  · rw [exec_call_full nnn s hs, exec_call_full nnn (s.withUnseen st redraw stack) hs]
    exact .fault _

theorem storeAtI_withUnseen (h : s.HoldsStack stack) (bytes : List Byte) (i : Instr) :
    OutcomeRel SameToPrograms (storeAtI bytes i s) (storeAtI bytes i (s.withUnseen st redraw stack)) := by
  simp only [storeAtI, dataBase, State.withUnseen]
  cases Memory.store s.mem s.i.toNat bytes with
  | none => exact .fault _
  | some m => exact .next (.withUnseen h)

/-- No instruction but RET reads an unseen component; what CLS, DRW and LD ST, Vx write to one is unseen again. -/
theorem exec_withUnseen (h : s.HoldsStack stack) (i : Instr) :
    OutcomeRel SameToPrograms (exec i s) (exec i (s.withUnseen st redraw stack)) := by
  cases i
  case ret => exact exec_ret_withUnseen h
  case call nnn => exact exec_call_withUnseen h nnn
  case skp x | sknp x | ldFVx x =>
    simp only [exec, execSkp, execSknp, execLdFVx, State.getV, State.withUnseen]
    cases hexOperand s.v[x] with
    | none => exact .fault _
    | some k => exact .next (.withUnseen h)
  case ldBVx x => exact storeAtI_withUnseen h (decimalDigits (s.getV x)) (.ldBVx x)
  case ldMemVx x => exact storeAtI_withUnseen h (lowRegisters x s) (.ldMemVx x)
  case ldVxMem x =>
    simp only [exec, execLdVxMem, dataBase, State.withUnseen]
    cases Memory.load s.mem s.i.toNat (x.val + 1) with
    | none => exact .fault _
    | some bytes => exact .next (.withUnseen h)
  case drw x y n =>
    simp only [exec, execDrw, dataBase, State.withUnseen]
    cases Memory.load s.mem s.i.toNat n.val with
    | none => exact .fault _
    | some rows => exact .next (.withUnseen h)
  all_goals exact .next (.withUnseen h)

theorem step_withUnseen (h : s.HoldsStack stack) :
    OutcomeRel SameToPrograms (step s) (step (s.withUnseen st redraw stack)) := by
  have hkw : (s.withUnseen st redraw stack).kw = s.kw := rfl
  have hfetch : fetch (s.withUnseen st redraw stack) = fetch s := rfl
  simp only [step, hkw, hfetch]
  cases s.kw with
  | waiting x => exact .next (.withUnseen h)
  | captured x k => exact .next (.withUnseen h)
  | notWaiting =>
    cases fetch s with
    | none => exact .fault _
    | some w =>
      dsimp only
      cases decode w with
      | none => exact .fault _
      | some i => exact exec_withUnseen h i

end

/-- Settles O60: the second state is the first with other unseen components, and no step reads them but a pop, whose
slot is in use and agrees. -/
theorem programsCannotSeeSoundRedrawOrStaleSlots : Obligations.ProgramsCannotSeeSoundRedrawOrStaleSlots := by
  intro s t h
  obtain ⟨st, redraw, stack, hstack, rfl⟩ := h.exists_withUnseen
  have hstep : OutcomeRel SameToPrograms (step s) (step (s.withUnseen st redraw stack)) := step_withUnseen hstack
  exact ⟨fun _ => hstep.eq_fault, fun _ => hstep.exists_next⟩

end Sys2Proof.Machine
end

section
/-! The flag writers (10_state.md R35, R36). -/

namespace Sys2Proof.Machine

/-- An instruction that writes its flag last leaves it in VF, whatever its destination. -/
theorem getV_vf_of_writeResultAndFlag {x : Reg} {b flag : Byte} {s t : State}
    (h : writeResultAndFlag x b flag s = .next t) : t.getV 0xF = flag := by
  cases h
  simp [State.getV_setVF]

/-- DRW leaves a collision flag in VF. -/
theorem exec_drw_vf {x y : Reg} {n : RowCount} {s t : State} (h : exec (.drw x y n) s = .next t) :
    ∃ hit, t.getV 0xF = collisionFlag hit := by
  rcases exec_drw_cases x y n s with ⟨_, e⟩ | ⟨_, e⟩
  · rw [e] at h
    cases h
    exact ⟨_, by rw [State.getV_advance, State.getV_setVF, if_pos rfl]⟩
  · rw [e] at h
    cases h

/-- Settles O29: the five ALU instructions write their flag through `writeResultAndFlag`, DRW its own, and every flag
is the byte of a condition. -/
theorem flagWritersLeaveZeroOrOneInVf : Obligations.FlagWritersLeaveZeroOrOneInVf := by
  intro x y n s t h
  suffices hflag : ∃ cond, t.getV 0xF = flagByte cond by
    obtain ⟨cond, e⟩ := hflag
    exact e ▸ flagByte_cases cond
  rcases h with h | h | h | h | h | h
  · exact ⟨_, getV_vf_of_writeResultAndFlag h⟩
  · exact ⟨_, getV_vf_of_writeResultAndFlag h⟩
  · exact ⟨_, getV_vf_of_writeResultAndFlag h⟩
  · exact ⟨_, getV_vf_of_writeResultAndFlag h⟩
  · exact ⟨_, getV_vf_of_writeResultAndFlag h⟩
  · exact exec_drw_vf h

end Sys2Proof.Machine
end

section
/-! A register an instruction does not read (10_state.md R33). -/

namespace Sys2Proof.Machine

/-- What a register r set to b beforehand leaves of it in the next state: nothing where the instruction writes r, and
b in r where it does not. -/
def CarriesUnlessWritten (written : Prop) (r : Reg) (b : Byte) (t u : State) : Prop :=
  (written → u = t) ∧ (¬ written → u = t.setV r b)

section
variable {s t : State} {written : Prop} {r x y : Reg} {b : Byte}

theorem CarriesUnlessWritten.of_not (h : ¬ written) : CarriesUnlessWritten written r b t (t.setV r b) :=
  ⟨fun hw => absurd hw h, fun _ => rfl⟩

theorem State.getV_setV_unread (h : ¬ r = x) : (s.setV r b).getV x = s.getV x :=
  State.getV_setV_other s r x b (Ne.symm h)

/-- The result of an ALU instruction overwrites its destination and nothing else. -/
theorem writeResult_setV (a : Byte) :
    OutcomeRel (CarriesUnlessWritten (r = x) r b) (writeResult x a s) (writeResult x a (s.setV r b)) := by
  refine .next ⟨?_, fun h => ?_⟩
  · rintro rfl
    rw [State.setV_setV]
  · rw [State.setV_comm s x r a b h]
    rfl

/-- A result and its flag overwrite the destination and VF, which may be one register. -/
theorem writeResultAndFlag_setV (a flag : Byte) :
    OutcomeRel (CarriesUnlessWritten (r = x ∨ r = 0xF) r b) (writeResultAndFlag x a flag s)
      (writeResultAndFlag x a flag (s.setV r b)) := by
  refine .next ⟨?_, fun h => ?_⟩
  · rintro (rfl | rfl)
    · rw [State.setV_setV]
    · by_cases h : 0xF = x
      · rw [h, State.setV_setV]
      · rw [State.setV_comm s x 0xF a b h, State.setVF, State.setV_setV, State.setVF]
  · rw [not_or] at h
    rw [State.setV_comm s x r a b h.1, State.setVF, State.setV_comm _ 0xF r flag b h.2]
    rfl

theorem storeAtI_setV (bytes : List Byte) (i : Instr) :
    OutcomeRel (CarriesUnlessWritten False r b) (storeAtI bytes i s) (storeAtI bytes i (s.setV r b)) := by
  simp only [storeAtI, dataBase, State.setV_mem, State.setV_i]
  cases Memory.store s.mem s.i.toNat bytes with
  | none => exact .fault _
  | some m => exact .next (.of_not id)

/-- A block load overwrites r when it reaches r, and leaves r alone when it does not. -/
theorem State.setLow_setV (bytes : List Byte) :
    CarriesUnlessWritten (r.val < bytes.length) r b (s.setLow bytes) ((s.setV r b).setLow bytes) := by
  refine ⟨fun h => ?_, fun h => ?_⟩
  · refine congrArg (fun v => { s with v := v }) (Vector.ext fun k hk => ?_)
    by_cases hkr : r.val = k
    · subst hkr
      simp [h]
    · simp [hkr]
  · refine congrArg (fun v => { s with v := v }) (Vector.ext fun k hk => ?_)
    by_cases hkr : r.val = k
    · subst hkr
      simp [Nat.le_of_not_lt h]
    · simp [hkr]

theorem lowRegisters_setV (h : ¬ r ≤ x) : lowRegisters x (s.setV r b) = lowRegisters x s := by
  rw [lowRegisters, State.setV_v, Vector.toList_set, List.take_set_of_le (Fin.not_le.1 h), lowRegisters]

/-- What SHR reads SHL reads too, so this serves both. -/
theorem shiftOperand_setV (h : ¬ readsReg s.shiftSource (.shr x y) r) :
    shiftOperand x y (s.setV r b) = shiftOperand x y s := by
  cases hs : s.shiftSource <;> rw [hs] at h
  · simpa only [shiftOperand, State.setV_shiftSource, hs] using State.getV_setV_unread h
  · simpa only [shiftOperand, State.setV_shiftSource, hs] using State.getV_setV_unread h

theorem exec_ret_setV : OutcomeRel (CarriesUnlessWritten False r b) (exec .ret s) (exec .ret (s.setV r b)) := by
  rcases Nat.eq_zero_or_pos s.sp.val with hs | hs
  · rw [exec_ret_empty s hs, exec_ret_empty (s.setV r b) hs]
    exact .fault _
  · rw [exec_ret_used s hs, exec_ret_used (s.setV r b) hs]
    exact .next (.of_not id)

theorem exec_call_setV (nnn : Addr12) :
    OutcomeRel (CarriesUnlessWritten False r b) (exec (.call nnn) s) (exec (.call nnn) (s.setV r b)) := by
  rcases Nat.lt_or_ge s.sp.val 16 with hs | hs
  · rw [exec_call_free nnn s hs, exec_call_free nnn (s.setV r b) hs]
    exact .next (.of_not id)
  · rw [exec_call_full nnn s hs, exec_call_full nnn (s.setV r b) hs]
    exact .fault _

theorem exec_ldVxMem_setV :
    OutcomeRel (CarriesUnlessWritten (r ≤ x) r b) (exec (.ldVxMem x) s) (exec (.ldVxMem x) (s.setV r b)) := by
  simp only [exec, execLdVxMem, dataBase, State.setV_mem, State.setV_i]
  rcases Memory.load_cases s.mem s.i.toNat (x.val + 1) with ⟨-, e⟩ | ⟨-, e⟩
  · obtain ⟨hw, hk⟩ := State.setLow_setV (s := s) (r := r) (b := b)
      ((List.range (x.val + 1)).map fun k => Memory.read s.mem (s.i.toNat + k))
    simp only [List.length_map, List.length_range, Nat.lt_succ_iff] at hw hk
    rw [e]
    exact .next ⟨fun h => congrArg State.advance (hw h), fun h => congrArg State.advance (hk h)⟩
  · rw [e]
    exact .fault _

/-- DRW ends by writing its flag to VF as an ALU instruction writes its result. -/
theorem exec_drw_setV (n : RowCount) (hx : ¬ r = x) (hy : ¬ r = y) :
    OutcomeRel (CarriesUnlessWritten (r = 0xF) r b) (exec (.drw x y n) s) (exec (.drw x y n) (s.setV r b)) := by
  simp only [exec, execDrw, dataBase, State.setV_mem, State.setV_i, State.setV_fb, State.getV_setV_unread hx,
    State.getV_setV_unread hy]
  cases Memory.load s.mem s.i.toNat n.val with
  | none => exact .fault _
  | some rows => exact writeResult_setV _

end

/-- One split over the instructions: what each reads is the same with r set to b beforehand, so its operation is. -/
theorem exec_setV_unread {s : State} {r : Reg} (b : Byte) (i : Instr) (h : ¬ readsReg s.shiftSource i r) :
    OutcomeRel (CarriesUnlessWritten (writesReg i r) r b) (exec i s) (exec i (s.setV r b)) := by
  cases i
  case cls | jp | ldI | ldVxK => exact .next (.of_not id)
  case ret => exact exec_ret_setV
  case call nnn => exact exec_call_setV nnn
  case ldVxMem x => exact exec_ldVxMem_setV
  case drw x y n => exact exec_drw_setV n (fun e => h (.inl e)) (fun e => h (.inr e))
  case skp x | sknp x | ldFVx x =>
    simp only [exec, execSkp, execSknp, execLdFVx, State.getV_setV_unread h]
    cases hexOperand (s.getV x) with
    | none => exact .fault _
    | some k => exact .next (.of_not id)
  case ldBVx x =>
    simp only [exec, execLdBVx, State.getV_setV_unread h]
    exact storeAtI_setV _ _
  case ldMemVx x =>
    simp only [exec, execLdMemVx, lowRegisters_setV h]
    exact storeAtI_setV _ _
  case ldImm x nn => exact writeResult_setV nn
  case ldVxDt x => exact writeResult_setV s.dt
  case rnd x nn => exact writeResult_setV (s := s.skipDraws 1) _
  case shr x y | shl x y =>
    simp only [exec, execShr, execShl, shiftOperand_setV h]
    exact writeResultAndFlag_setV _ _
  case addReg x y | sub x y | subn x y =>
    obtain ⟨hx, hy⟩ := not_or.1 h
    simp only [exec, execAddReg, execSub, execSubn, State.getV_setV_unread hx, State.getV_setV_unread hy]
    exact writeResultAndFlag_setV _ _
  case orReg x y | andReg x y | xorReg x y =>
    obtain ⟨hx, hy⟩ := not_or.1 h
    simp only [exec, execOr, execAnd, execXor, State.getV_setV_unread hx, State.getV_setV_unread hy]
    exact writeResult_setV _
  case addImm x _ | ldReg _ x =>
    simp only [exec, execAddImm, execLdReg, State.getV_setV_unread h]
    exact writeResult_setV _
  case seReg x y | sneReg x y =>
    obtain ⟨hx, hy⟩ := not_or.1 h
    simp only [exec, execSeReg, execSneReg, State.getV_setV_unread hx, State.getV_setV_unread hy]
    exact .next (.of_not id)
  case jpV0 nnn =>
    simp only [exec, execJpV0, offsetTarget, State.getV_setV_unread h]
    exact .next (.of_not id)
  case seImm x _ | sneImm x _ | ldDtVx x | ldStVx x | addIVx x =>
    simp only [exec, execSeImm, execSneImm, execLdDtVx, execLdStVx, execAddIVx, State.getV_setV_unread h]
    exact .next (.of_not id)

/-- The registers in an instruction's frame are R33's destinations and R35's flag writers. -/
theorem mayWrite_regs (i : Instr) (s : State) (r : Reg) : (mayWrite i s).regs r = writesReg i r := by
  cases i <;> rfl

/-- A register an instruction does not write keeps its value. -/
theorem getV_of_not_writesReg {i : Instr} {s t : State} {r : Reg} (h : exec i s = .next t) (hw : ¬ writesReg i r) :
    t.getV r = s.getV r := by
  obtain ⟨hregs, -⟩ := exec_onlyWrites i s t h
  exact hregs r (mayWrite_regs i s r ▸ hw)

/-- Settles O30: the instruction answers the same with r set beforehand up to r itself, which it leaves alone unless
it writes it. -/
theorem unreadRegistersCannotMatter : Obligations.UnreadRegistersCannotMatter := by
  intro i s r b h
  have hrel := exec_setV_unread b i h
  refine ⟨fun f => hrel.eq_fault, fun t ht => ?_⟩
  obtain ⟨u, hu, hwritten, hkept⟩ := hrel.exists_next ht
  exact ⟨fun hw => hwritten hw ▸ hu, fun hw => ⟨getV_of_not_writesReg ht hw, hkept hw ▸ hu⟩⟩

end Sys2Proof.Machine
end

section
/-! The state the machine starts in (10_state.md R48). -/

namespace Sys2Proof.Machine

/-- Settles O57: nothing is listed in memory, PC is 0x200, no slot is in use and no key-wait is pending. -/
theorem resetMeetsTheInvariants : Obligations.ResetMeetsTheInvariants := by
  have hkw : State.reset.kw = .notWaiting := rfl
  refine ⟨⟨rfl, by decide, fun k hk => absurd hk (Nat.not_lt_zero _), fun h => absurd hkw h⟩, ?_⟩
  rintro x (h | ⟨k, h⟩)
  · cases h
  · cases h

end Sys2Proof.Machine
end

section
/-! Stores and the bytes they change (20_memory.md R72, R80): a step fetches from memory as the step before left it, and
no step but LD B, Vx and LD [I], Vx leaves another byte there. -/

namespace Sys2Proof.Machine

/-- With no key-wait, a fetched word that decodes is executed. -/
theorem step_eq_exec {s : State} {w : Word} {i : Instr} (hkw : s.kw = .notWaiting) (hf : fetch s = some w)
    (hd : decode w = some i) : step s = exec i s := by
  simp only [step, hkw, hf, hd]

/-- What a successful LD [I], Vx leaves for the next step: the registers in memory in order, PC behind the
instruction, and KW as it was. -/
theorem exec_ldMemVx_next {x : Reg} {s t : State} (h : exec (.ldMemVx x) s = .next t) :
    t.pc = s.pc + 2 ∧ t.kw = s.kw ∧ ∀ r : Reg, r ≤ x → Memory.read t.mem (s.i.toNat + r.val) = s.getV r := by
  rcases exec_ldMemVx_cases x s with ⟨-, e⟩ | ⟨-, e⟩ <;> rw [e] at h <;> cases h
  refine ⟨rfl, rfl, fun r hr => ?_⟩
  have hlen : r.val < (lowRegisters x s).length := lowRegisters_length x s ▸ Nat.lt_succ_of_le hr
  exact (Memory.read_writeAll_inside s.mem s.i.toNat r.val _ hlen).trans (lowRegisters_get x r s hr)

/-- Settles O39: F155 leaves V[0] and V[1] in the two bytes its successor is fetched from. -/
theorem storedInstructionRunsNext : Obligations.StoredInstructionRunsNext := by
  intro s t i hkw hfetch hpc hi hstep hdecode
  have hstore : decode (encode (.ldMemVx 1)) = some (.ldMemVx 1) := by decide
  rw [step_eq_exec hkw hfetch hstore] at hstep
  obtain ⟨htpc, htkw, hread⟩ := exec_ldMemVx_next hstep
  have haddr : t.pc = s.i := htpc.trans hi.symm
  have hinside : t.pc.toNat ≤ 0xFFE := by
    rw [htpc, BitVec.toNat_add]
    exact (Nat.mod_le _ _).trans hpc
  have hhigh : Memory.read t.mem t.pc.toNat = s.getV 0 := haddr ▸ hread 0 (by decide)
  have hlow : Memory.read t.mem (t.pc.toNat + 1) = s.getV 1 := haddr ▸ hread 1 (by decide)
  have hnext : fetch t = some (bigEndian (s.getV 0) (s.getV 1)) := by
    rw [fetch_inside t hinside, hhigh, hlow]
  exact step_eq_exec (htkw.trans hkw) hnext hdecode

/-- The bytes in an instruction's frame are the ranges of the two stores. -/
theorem mayWrite_mem {i : Instr} {s : State} {a : Nat} (h : (mayWrite i s).mem a) :
    ∃ x, s.i.toNat ≤ a ∧ ((i = .ldBVx x ∧ a ≤ s.i.toNat + 2) ∨ (i = .ldMemVx x ∧ a ≤ s.i.toNat + x.val)) := by
  cases i
  case ldBVx x => exact ⟨x, h.1, .inl ⟨rfl, h.2⟩⟩
  case ldMemVx x => exact ⟨x, h.1, .inr ⟨rfl, h.2⟩⟩
  all_goals exact h.elim

/-- An instruction changes a byte of memory only inside its frame. -/
theorem mayWrite_mem_of_read_ne {i : Instr} {s t : State} {a : Nat} (h : exec i s = .next t)
    (hne : Memory.read t.mem a ≠ Memory.read s.mem a) : (mayWrite i s).mem a := by
  obtain ⟨-, hmem, -⟩ := exec_onlyWrites i s t h
  exact not_imp_comm.1 (hmem a) hne

/-- Settles O40: a key-wait keeps memory, so the step executed an instruction, and the byte is in its frame. -/
theorem onlyStoresChangeMemory : Obligations.OnlyStoresChangeMemory := by
  intro s t a hstep hne
  rcases step_eq_next s t hstep with ⟨_, -, rfl⟩ | ⟨_, _, -, rfl⟩ | ⟨w, i, -, hfetch, hdecode, hexec⟩
  · exact absurd rfl hne
  · exact absurd rfl hne
  · obtain ⟨x, hlo, hwrites⟩ := mayWrite_mem (mayWrite_mem_of_read_ne hexec hne)
    have hword : ∀ {j}, i = j → decode w = some j := fun e => e ▸ hdecode
    exact ⟨w, x, hfetch, hlo, hwrites.imp (And.imp_left hword) (And.imp_left hword)⟩

end Sys2Proof.Machine
end

section
/-! The word and the instruction (30_encoding.md R104, R105): a word that decodes is the encoding of what it decodes to,
and the words that decode are those a row of the opcode map matches. -/

namespace Sys2Proof

section
variable {w : Word} {op : BitVec 4}

theorem packAddr_of_op (h : (opOf w).toNat = op.toNat) : packAddr op (nnnOf w) = w :=
  BitVec.eq_of_toNat_eq h ▸ packAddr_fields w

theorem packByte_of_op (h : (opOf w).toNat = op.toNat) : packByte op (xOf w) (nnOf w) = w :=
  BitVec.eq_of_toNat_eq h ▸ packByte_fields w

theorem pack4_of_op (h : (opOf w).toNat = op.toNat) : pack4 op (xOf w) (yOf w) (nOf w) = w :=
  BitVec.eq_of_toNat_eq h ▸ pack4_fields w

end

theorem encode_of_decodePair {x y n : Fin 16} {i : Instr} (h : decodePair x y n.val = some i) :
    encode i = pack4 0x8 x y n := by
  unfold decodePair at h
  split at h <;> cases h
  all_goals exact congrArg (pack4 0x8 x y) (Fin.ext ‹n.val = _›.symm)

theorem encode_of_decodeKey {x : Reg} {nn : Byte} {i : Instr} (h : decodeKey x nn.toNat = some i) :
    encode i = packByte 0xE x nn := by
  unfold decodeKey at h
  split at h <;> cases h
  all_goals exact congrArg (packByte 0xE x) (BitVec.eq_of_toNat_eq ‹nn.toNat = _›.symm)

theorem encode_of_decodeMisc {x : Reg} {nn : Byte} {i : Instr} (h : decodeMisc x nn.toNat = some i) :
    encode i = packByte 0xF x nn := by
  unfold decodeMisc at h
  split at h <;> cases h
  all_goals exact congrArg (packByte 0xF x) (BitVec.eq_of_toNat_eq ‹nn.toNat = _›.symm)

/-- Decoding loses no bit of a word: the fields of each family are the whole word. -/
theorem encode_of_decode {w : Word} {i : Instr} (h : decode w = some i) : encode i = w := by
  unfold decode at h
  split at h
  next =>
    split_ifs at h with hcls hret <;> cases h
    · exact hcls.symm
    · exact hret.symm
  next hop => cases h; exact packAddr_of_op hop
  next hop => cases h; exact packAddr_of_op hop
  next hop => cases h; exact packByte_of_op hop
  next hop => cases h; exact packByte_of_op hop
  next hop => split_ifs at h with hn; cases h; exact (congrArg (pack4 _ _ _) hn.symm).trans (pack4_of_op hop)
  next hop => cases h; exact packByte_of_op hop
  next hop => cases h; exact packByte_of_op hop
  next hop => exact (encode_of_decodePair h).trans (pack4_of_op hop)
  next hop => split_ifs at h with hn; cases h; exact (congrArg (pack4 _ _ _) hn.symm).trans (pack4_of_op hop)
  next hop => cases h; exact packAddr_of_op hop
  next hop => cases h; exact packAddr_of_op hop
  next hop => cases h; exact packByte_of_op hop
  next hop => cases h; exact pack4_of_op hop
  next hop => exact (encode_of_decodeKey h).trans (packByte_of_op hop)
  next hop => exact (encode_of_decodeMisc h).trans (packByte_of_op hop)
  next => cases h

/-- The laws of the single instructions as one. -/
theorem encodesInTable (i : Instr) : Laws.EncodesInTable.Statement i := by
  open Laws.EncodesInTable in
  cases i
  exacts [cls, ret, jp _, call _, seImm _ _, sneImm _ _, seReg _ _, ldImm _ _, addImm _ _, ldReg _ _, orReg _ _,
    andReg _ _, xorReg _ _, addReg _ _, sub _ _, shr _ _, subn _ _, shl _ _, sneReg _ _, ldI _, jpV0 _, rnd _ _,
    drw _ _ _, skp _, sknp _, ldVxDt _, ldVxK _, ldDtVx _, ldStVx _, addIVx _, ldFVx _, ldBVx _, ldMemVx _, ldVxMem _]

theorem wordWellFormed_of_decode {w : Word} {i : Instr} (h : decode w = some i) : wordWellFormed w = true := by
  obtain ⟨row, hrow, -, hadmits⟩ := encodesInTable i
  exact List.any_eq_true.2 ⟨row, hrow, encode_of_decode h ▸ hadmits⟩

theorem decode_of_fixedRow {w : Word} {row : OpcodeRow} (hrow : row ∈ fixedRows) (h : row.admits w = true) :
    (decode w).isSome = true := by
  have hrows : ∀ r ∈ fixedRows, r.mask = BitVec.allOnes 16 ∧ (decode r.bits).isSome = true := by decide
  obtain ⟨hmask, hbits⟩ := hrows row hrow
  simp only [OpcodeRow.admits, hmask, BitVec.and_allOnes, beq_iff_eq] at h
  exact h ▸ hbits

theorem decode_of_familyRow {w : Word} {row : OpcodeRow} (hrow : row ∈ familyRows) (h : row.admits w = true) :
    (decode w).isSome = true := by
  have hrows : ∀ r ∈ familyRows, r.mask = 0xF000#16 ∧
      opOf r.bits ∈ [0x1, 0x2, 0x3, 0x4, 0x6, 0x7, 0xA, 0xB, 0xC, 0xD] := by decide
  obtain ⟨hmask, hop⟩ := hrows row hrow
  simp only [OpcodeRow.admits, hmask, beq_iff_eq] at h
  rw [← h, and_familyMask, opOf_packAddr] at hop
  simp only [List.mem_cons, List.not_mem_nil, or_false] at hop
  rcases hop with hop | hop | hop | hop | hop | hop | hop | hop | hop | hop <;> simp [decode, hop]

theorem decode_of_pairRow {w : Word} {row : OpcodeRow} (hrow : row ∈ pairRows) (h : row.admits w = true) :
    (decode w).isSome = true := by
  have hrows : ∀ r ∈ pairRows, r.mask = 0xF00F#16 ∧
      (((opOf r.bits = 0x5 ∨ opOf r.bits = 0x9) ∧ nOf r.bits = 0) ∨
        (opOf r.bits = 0x8 ∧ ∀ x y, (decodePair x y (nOf r.bits)).isSome = true)) := by decide
  obtain ⟨hmask, hfields⟩ := hrows row hrow
  simp only [OpcodeRow.admits, hmask, beq_iff_eq] at h
  rw [← h, and_pairMask, opOf_pack4, nOf_pack4] at hfields
  rcases hfields with ⟨hop | hop, hn⟩ | ⟨hop, hpair⟩
  · simp [decode, hop, hn]
  · simp [decode, hop, hn]
  · rw [decode_of_op8 w hop]
    exact hpair _ _

theorem decode_of_singleRow {w : Word} {row : OpcodeRow} (hrow : row ∈ singleRows) (h : row.admits w = true) :
    (decode w).isSome = true := by
  have hrows : ∀ r ∈ singleRows, r.mask = 0xF0FF#16 ∧
      ((opOf r.bits = 0xE ∧ ∀ x, (decodeKey x (nnOf r.bits).toNat).isSome = true) ∨
        (opOf r.bits = 0xF ∧ ∀ x, (decodeMisc x (nnOf r.bits).toNat).isSome = true)) := by decide
  obtain ⟨hmask, hfields⟩ := hrows row hrow
  simp only [OpcodeRow.admits, hmask, beq_iff_eq] at h
  rw [← h, and_singleMask, opOf_packByte, nnOf_packByte] at hfields
  rcases hfields with ⟨hop, hkey⟩ | ⟨hop, hmisc⟩
  · exact decode_of_opE w hop ▸ hkey _
  · exact decode_of_opF w hop ▸ hmisc _

/-- A word is recognized exactly when some row of the opcode map matches it. -/
theorem decode_isSome_iff (w : Word) : (decode w).isSome = true ↔ wordWellFormed w = true := by
  refine ⟨fun h => ?_, fun h => ?_⟩
  · obtain ⟨i, hi⟩ := Option.isSome_iff_exists.1 h
    exact wordWellFormed_of_decode hi
  · obtain ⟨row, hrow, hadmits⟩ := List.any_eq_true.1 h
    simp only [opcodeRows, List.mem_append] at hrow
    rcases hrow with ((hrow | hrow) | hrow) | hrow
    · exact decode_of_fixedRow hrow hadmits
    · exact decode_of_familyRow hrow hadmits
    · exact decode_of_pairRow hrow hadmits
    · exact decode_of_singleRow hrow hadmits

end Sys2Proof
end

section
/-! The step cycle (40_engine.md R130-R135): a step with no key-wait executes the decoded instruction, and with one
pending it fetches nothing. -/

namespace Sys2Proof.Machine

/-- An error of a step goes to the host and the state stays (40_engine.md R135). -/
theorem transact_step_of_fault {s : State} {f : Fault} (h : step s = .fault f) : transact .step s = (s, .err f) :=
  congrArg (settle s) h

theorem step_eq_unrecognized {s : State} {w : Word} (hkw : s.kw = .notWaiting) (hf : fetch s = some w)
    (hd : decode w = none) : step s = .fault (.unrecognizedOpcode w s.pc) := by
  simp only [step, hkw, hf, hd, decodeError]

/-- Settles O5: the word fetched at PC is the two bytes there, high byte first. -/
theorem stepRunsTheDecodedInstruction : Obligations.StepRunsTheDecodedInstruction :=
  fun s _ hkw hpc hd => step_eq_exec hkw (fetch_inside s hpc) hd

/-- Settles O6: the decoder recognizes exactly the words some row matches, and loses no bit of them. -/
theorem unrecognizedWordRaises : Obligations.UnrecognizedWordRaises := by
  refine ⟨fun s w hkw hf hwf => ?_, fun s w hkw hf hwf => ?_⟩
  · obtain ⟨i, hd⟩ := Option.isSome_iff_exists.1 ((decode_isSome_iff w).2 hwf)
    exact ⟨i, hd, encode_of_decode hd, step_eq_exec hkw hf hd⟩
  · have hd : decode w = none := by
      rw [← Option.not_isSome_iff_eq_none, decode_isSome_iff, hwf]
      exact Bool.false_ne_true
    have hstep := step_eq_unrecognized hkw hf hd
    exact ⟨hstep, transact_step_of_fault hstep⟩

/-- Settles O7: the two steps that fetch nothing; the key's number, at most 15, fits a register. -/
theorem stepDuringKeyWait : Obligations.StepDuringKeyWait := by
  refine ⟨step_waiting, fun s x k hkw => ⟨_, step_captured s x k hkw, ?_, rfl, rfl, onlyWrites_captured s x _⟩⟩
  rw [State.getV_setKw, State.getV_advance, State.getV_setV_same, BitVec.toNat_ofNat]
  omega

end Sys2Proof.Machine
end

section
/-! What a step leaves alone (40_engine.md R134): the key latches and SHIFT_SOURCE always, DT and ST but for the
instruction that sets them. -/

namespace Sys2Proof.Machine

theorem mayWrite_keys (i : Instr) (s : State) (k : Key) : ¬ (mayWrite i s).keys k := by
  cases i <;> exact id

theorem mayWrite_delay {i : Instr} {s : State} (h : (mayWrite i s).delay ≠ false) : ∃ x, i = .ldDtVx x := by
  cases i
  case ldDtVx x => exact ⟨x, rfl⟩
  all_goals exact absurd rfl h

theorem mayWrite_sound {i : Instr} {s : State} (h : (mayWrite i s).sound ≠ false) : ∃ x, i = .ldStVx x := by
  cases i
  case ldStVx x => exact ⟨x, rfl⟩
  all_goals exact absurd rfl h

/-- Settles O13: a key-wait step leaves all four alone, and no instruction's frame holds more. -/
theorem stepsLeaveTimersAndLatches : Obligations.StepsLeaveTimersAndLatches := by
  intro s t hstep
  rcases step_eq_next s t hstep with ⟨_, -, rfl⟩ | ⟨_, _, -, rfl⟩ | ⟨w, i, -, hfetch, hdecode, hexec⟩
  · exact ⟨fun _ => rfl, rfl, fun h => absurd rfl h, fun h => absurd rfl h⟩
  · exact ⟨fun _ => rfl, rfl, fun h => absurd rfl h, fun h => absurd rfl h⟩
  · obtain ⟨-, -, hkeys, -, -, hdt, hst, -, -, -, -, hsource⟩ := exec_onlyWrites i s t hexec
    refine ⟨fun k => hkeys k (mayWrite_keys i s k), hsource, fun hne => ?_, fun hne => ?_⟩
    · obtain ⟨x, rfl⟩ := mayWrite_delay (mt hdt hne)
      exact ⟨w, x, hfetch, hdecode⟩
    · obtain ⟨x, rfl⟩ := mayWrite_sound (mt hst hne)
      exact ⟨w, x, hfetch, hdecode⟩

end Sys2Proof.Machine
end

section
/-! PC after an instruction (40_engine.md R136). -/

namespace Sys2Proof.Machine

section
variable {p q : Prop} {r : Result} {t : State} {f : Fault}

/-! Where all an instruction can do is one next state or one error, a next state is that one: for the `_cases` lemmas
whose next state takes the condition, and for those whose next state does not. -/

theorem next_of_exists_or_fault {u : p → State} (hcases : (∃ hp : p, r = .next (u hp)) ∨ (q ∧ r = .fault f))
    (h : r = .next t) : ∃ hp : p, t = u hp := by
  rcases hcases with ⟨hp, e⟩ | ⟨-, e⟩
  · exact ⟨hp, Host.Outcome.next.inj (h.symm.trans e)⟩
  · cases h.symm.trans e

theorem next_of_and_or_fault {u : State} (hcases : (p ∧ r = .next u) ∨ (q ∧ r = .fault f)) (h : r = .next t) :
    p ∧ t = u :=
  have ⟨hp, ht⟩ := next_of_exists_or_fault (u := fun _ => u) (hcases.imp_left fun ⟨hp, e⟩ => ⟨hp, e⟩) h
  ⟨hp, ht⟩

end

theorem State.skipIf_pc_eq_skipTarget (s : State) {c : Bool} {p : Prop} [Decidable p] (h : c = true ↔ p) :
    (s.skipIf c).pc = skipTarget p s.pc := by
  simp only [State.skipIf_pc, skipTarget, h]
  split <;> rfl

/-- The latch of the key a register names, as the table of R136 speaks of it. -/
theorem getKey_iff_exists (s : State) {b : Byte} (h : b.toNat < 16) (pressed : Bool) :
    s.getKey ⟨b.toNat, h⟩ = pressed ↔ ∃ k : Key, k.val = b.toNat ∧ s.getKey k = pressed := by
  refine ⟨fun hk => ⟨_, rfl, hk⟩, ?_⟩
  rintro ⟨k, hval, hk⟩
  exact (Fin.ext hval : k = ⟨b.toNat, h⟩) ▸ hk

theorem pcAfter_ret {s : State} (h : 0 < s.sp.val) : pcAfter .ret s = s.stack[s.sp.val - 1] :=
  List.getD_eq_getElem s.stack.toList 0 (by rw [Vector.length_toList]; omega)

/-- An instruction that succeeds leaves PC as the table of R136 says. -/
theorem exec_pc {i : Instr} {s t : State} (h : exec i s = .next t) : t.pc = pcAfter i s := by
  cases i
  case ret =>
    obtain ⟨hsp, rfl⟩ := next_of_exists_or_fault (exec_ret_cases s) h
    exact (pcAfter_ret hsp).symm
  case call nnn => obtain ⟨_, rfl⟩ := next_of_exists_or_fault (exec_call_cases nnn s) h; rfl
  case seImm x nn => cases h; exact s.skipIf_pc_eq_skipTarget beq_iff_eq
  case sneImm x nn => cases h; exact s.skipIf_pc_eq_skipTarget bne_iff_ne
  case seReg x y => cases h; exact s.skipIf_pc_eq_skipTarget beq_iff_eq
  case sneReg x y => cases h; exact s.skipIf_pc_eq_skipTarget bne_iff_ne
  case skp x =>
    obtain ⟨hx, rfl⟩ := next_of_exists_or_fault (exec_skp_cases x s) h
    exact s.skipIf_pc_eq_skipTarget (getKey_iff_exists s hx true)
  case sknp x =>
    obtain ⟨hx, rfl⟩ := next_of_exists_or_fault (exec_sknp_cases x s) h
    exact s.skipIf_pc_eq_skipTarget ((Bool.not_eq_true' _).to_iff.trans (getKey_iff_exists s hx false))
  case ldFVx x => obtain ⟨_, rfl⟩ := next_of_exists_or_fault (exec_ldFVx_cases x s) h; rfl
  case ldBVx x => obtain ⟨_, rfl⟩ := next_of_and_or_fault (exec_ldBVx_cases x s) h; rfl
  case ldMemVx x => obtain ⟨_, rfl⟩ := next_of_and_or_fault (exec_ldMemVx_cases x s) h; rfl
  case ldVxMem x => obtain ⟨_, rfl⟩ := next_of_and_or_fault (exec_ldVxMem_cases x s) h; rfl
  case drw x y n => obtain ⟨_, rfl⟩ := next_of_and_or_fault (exec_drw_cases x y n s) h; rfl
  all_goals cases h; rfl

/-- Settles O8: the instructions by `exec_pc`, and the three steps that execute none. -/
theorem programCounterAfterStep : Obligations.ProgramCounterAfterStep := by
  refine ⟨fun i s t => exec_pc, fun s t x hkw h => ?_, fun s t x k hkw h => ?_, fun s f h => ?_⟩
  · rw [step_waiting s x hkw] at h
    cases h
    rfl
  · rw [step_captured s x k hkw] at h
    cases h
    rfl
  · rw [transact_step_of_fault h]

end Sys2Proof.Machine
end

section
/-! The invariants of a step (40_engine.md R137, 41_flow.md R160, 10_state.md R39): what an instruction can do to
memory, PC, the stack and KW, and that each keeps its part. -/

namespace Sys2Proof.Machine

section
variable {i : Instr} {s t : State}

/-! ## Memory (20_memory.md R70, R72) -/

theorem storeAtI_keeps_wf {bytes : List Byte} (h : storeAtI bytes i s = .next t) (hwf : Memory.wf s.mem = true) :
    Memory.wf t.mem = true := by
  obtain ⟨hr, rfl⟩ := next_of_and_or_fault (storeAtI_cases bytes i s) h
  exact Memory.wf_writeAll s.mem s.i.toNat bytes hwf hr

/-- An instruction other than the two stores leaves the list of cells itself, not only the bytes read from it. -/
theorem exec_keeps_wf (h : exec i s = .next t) (hwf : Memory.wf s.mem = true) : Memory.wf t.mem = true := by
  cases i
  case ldBVx x => exact storeAtI_keeps_wf (i := .ldBVx x) h hwf
  case ldMemVx x => exact storeAtI_keeps_wf (i := .ldMemVx x) h hwf
  case ret => obtain ⟨_, rfl⟩ := next_of_exists_or_fault (exec_ret_cases s) h; exact hwf
  case call nnn => obtain ⟨_, rfl⟩ := next_of_exists_or_fault (exec_call_cases nnn s) h; exact hwf
  case skp x => obtain ⟨_, rfl⟩ := next_of_exists_or_fault (exec_skp_cases x s) h; exact hwf
  case sknp x => obtain ⟨_, rfl⟩ := next_of_exists_or_fault (exec_sknp_cases x s) h; exact hwf
  case ldFVx x => obtain ⟨_, rfl⟩ := next_of_exists_or_fault (exec_ldFVx_cases x s) h; exact hwf
  case ldVxMem x => obtain ⟨_, rfl⟩ := next_of_and_or_fault (exec_ldVxMem_cases x s) h; exact hwf
  case drw x y n => obtain ⟨_, rfl⟩ := next_of_and_or_fault (exec_drw_cases x y n s) h; exact hwf
  all_goals cases h; exact hwf

/-! ## The stack (41_flow.md R160, R162) -/

/-- Every return address in use is at most 0x1000, one past the last fetchable instruction. -/
def ReturnAddressesBounded (s : State) : Prop := ∀ k : Fin 16, k.val < s.sp.val → s.stack[k].toNat ≤ 0x1000

theorem ReturnAddressesBounded.push (hs : ReturnAddressesBounded s) {ret : Word} (hret : ret.toNat ≤ 0x1000)
    (h : s.sp.val < 16) :
    ReturnAddressesBounded { s with stack := s.stack.set s.sp.val ret h, sp := ⟨s.sp.val + 1, by omega⟩ } := by
  intro k hk
  by_cases he : s.sp.val = k.val
  · simpa [he] using hret
  · have := hs k (by simp only at hk; omega)
    simpa [Vector.getElem_set_ne, he] using this

theorem mayWrite_stack (h : (mayWrite i s).stack ≠ false) : i = .ret ∨ ∃ nnn, i = .call nnn := by
  cases i
  case ret => exact .inl rfl
  case call nnn => exact .inr ⟨nnn, rfl⟩
  all_goals exact absurd rfl h

theorem toNat_add_le {p : Word} {b : Nat} (hp : p.toNat ≤ b) (c : Word) : (p + c).toNat ≤ b + c.toNat := by
  rw [BitVec.toNat_add]
  exact (Nat.mod_le _ _).trans (Nat.add_le_add_right hp _)

/-- A call stacks the address after a fetched instruction, and a return only uncounts a slot. -/
theorem exec_keeps_returnAddressesBounded (h : exec i s = .next t) (hpc : s.pc.toNat ≤ 0xFFE)
    (hs : ReturnAddressesBounded s) : ReturnAddressesBounded t := by
  by_cases hstack : (mayWrite i s).stack = false
  · obtain ⟨-, -, -, -, hkept, -⟩ := exec_onlyWrites i s t h
    obtain ⟨hsp, hslots⟩ := hkept hstack
    simpa only [ReturnAddressesBounded, hsp, hslots] using hs
  rcases mayWrite_stack hstack with rfl | ⟨nnn, rfl⟩
  · obtain ⟨_, rfl⟩ := next_of_exists_or_fault (exec_ret_cases s) h
    exact fun k hk => hs k (Nat.lt_of_lt_of_le hk (Nat.sub_le _ _))
  · obtain ⟨hfree, rfl⟩ := next_of_exists_or_fault (exec_call_cases nnn s) h
    exact hs.push (toNat_add_le hpc 2) hfree

/-! ## PC (40_engine.md R137) -/

theorem skipTarget_le {p : Word} (hp : p.toNat ≤ 0xFFE) (cond : Prop) [Decidable cond] :
    (skipTarget cond p).toNat ≤ 0x10FE := by
  have h2 := toNat_add_le hp 2
  have h4 := toNat_add_le hp 4
  unfold skipTarget
  split
  · exact h4.trans (by decide)
  · exact h2.trans (by decide)

/-- The table of R136 from a fetchable PC: a return goes to a stacked address, and no target is above that of Bnnn with
V0 = 0xFF and nnn = 0xFFF. -/
theorem pcAfter_le (hpc : s.pc.toNat ≤ 0xFFE) (hs : ReturnAddressesBounded s) (hret : i = .ret → 0 < s.sp.val) :
    (pcAfter i s).toNat ≤ 0x10FE := by
  cases i
  case ret =>
    have hsp := hret rfl
    rw [pcAfter_ret hsp]
    exact (hs ⟨s.sp.val - 1, by omega⟩ (by simp only; omega)).trans (by decide)
  case jp nnn | call nnn =>
    have htarget : (addrOperand nnn).toNat = nnn.toNat := addrOperand_toNat nnn
    have := nnn.isLt
    change (addrOperand nnn).toNat ≤ 0x10FE
    omega
  case jpV0 nnn =>
    have htarget : (offsetTarget nnn s).toNat = (s.getV 0).toNat + nnn.toNat := offsetTarget_toNat nnn s
    have := nnn.isLt
    have := (s.getV 0).isLt
    change (offsetTarget nnn s).toNat ≤ 0x10FE
    omega
  case seImm | sneImm | seReg | sneReg | skp | sknp => exact skipTarget_le hpc _
  case ldVxK => exact hpc.trans (by decide)
  all_goals exact (toNat_add_le hpc 2).trans (by decide)

theorem exec_ret_sp_pos (h : exec .ret s = .next t) : 0 < s.sp.val := by
  obtain ⟨hsp, -⟩ := next_of_exists_or_fault (exec_ret_cases s) h
  exact hsp

/-! ## KW (10_state.md R39, R44) -/

/-- Only Fx0A writes KW, and then it writes nothing else. -/
theorem exec_kw (h : exec i s = .next t) : t.kw = s.kw ∨ ∃ x, i = .ldVxK x ∧ t = s.setKw (.waiting x) := by
  obtain ⟨-, -, -, -, -, -, -, hkept, -⟩ := exec_onlyWrites i s t h
  cases i
  case ldVxK x => exact .inr ⟨x, rfl, (Host.Outcome.next.inj h).symm⟩
  all_goals exact .inl (hkept rfl)

theorem keyWaitStandsOnItsInstruction_of_notWaiting (h : s.kw = .notWaiting) : KeyWaitStandsOnItsInstruction s := by
  rintro x (hw | ⟨k, hw⟩)
  · cases h ▸ hw
  · cases h ▸ hw

/-- A key-wait that starts stands on the word that was fetched. -/
theorem keyWaitStandsOnItsInstruction_setKw {x : Reg} (h : fetch s = some (encode (.ldVxK x))) :
    KeyWaitStandsOnItsInstruction (s.setKw (.waiting x)) := by
  rintro y (hw | ⟨k, hw⟩)
  · cases hw
    exact h
  · cases hw

/-! ## The steps -/

/-- A step that completes a key-wait moves PC past its Fx0A, which is fetchable. -/
theorem captured_keeps_inv {x : Reg} (b : Byte) (h : Inv s) (hkw : s.kw ≠ .notWaiting) :
    Inv (((s.setV x b).advance).setKw .notWaiting) := by
  obtain ⟨hwf, -, hstack, hfetchable⟩ := h
  exact ⟨hwf, (toNat_add_le (hfetchable hkw) 2).trans (by decide), hstack, fun hne => absurd rfl hne⟩

theorem exec_keeps_inv (h : exec i s = .next t) (hinv : Inv s) (hpc : s.pc.toNat ≤ 0xFFE) (hkw : s.kw = .notWaiting) :
    Inv t := by
  obtain ⟨hwf, -, hstack, -⟩ := hinv
  have hret : i = .ret → 0 < s.sp.val := fun e => exec_ret_sp_pos (e ▸ h)
  refine ⟨exec_keeps_wf h hwf, exec_pc h ▸ pcAfter_le hpc hstack hret,
    exec_keeps_returnAddressesBounded h hpc hstack, fun hne => ?_⟩
  rcases exec_kw h with hsame | ⟨x, -, rfl⟩
  · exact absurd (hsame.trans hkw) hne
  · exact hpc

theorem exec_keeps_keyWait {w : Word} (h : exec i s = .next t) (hkw : s.kw = .notWaiting) (hf : fetch s = some w)
    (hd : decode w = some i) : KeyWaitStandsOnItsInstruction t := by
  rcases exec_kw h with hsame | ⟨x, rfl, rfl⟩
  · exact keyWaitStandsOnItsInstruction_of_notWaiting (hsame.trans hkw)
  · exact keyWaitStandsOnItsInstruction_setKw (encode_of_decode hd ▸ hf)

end

/-- Settles O58: a pending key-wait keeps the state or ends behind its Fx0A, and an instruction was fetched, so PC is at
most 0xFFE and every part of the invariant follows from what the instruction can do to it. -/
theorem stepKeepsTheInvariants : Obligations.StepKeepsTheInvariants := by
  intro s t hinv hwait hstep
  rcases step_eq_next s t hstep with ⟨_, -, rfl⟩ | ⟨x, k, hkw, rfl⟩ | ⟨w, i, hkw, hfetch, hdecode, hexec⟩
  · exact ⟨hinv, hwait⟩
  · exact ⟨captured_keeps_inv _ hinv (by simp [hkw]), keyWaitStandsOnItsInstruction_of_notWaiting rfl⟩
  · exact ⟨exec_keeps_inv hexec hinv (fetch_eq_some s w hfetch) hkw, exec_keeps_keyWait hexec hkw hfetch hdecode⟩

end Sys2Proof.Machine
end

section
/-! From the fields of a word to its instruction: what the masks of the opcode map ask of the decoder (30_encoding.md
R103, R104). -/

namespace Sys2Proof.Machine

section
variable {op : BitVec 4} {n : Fin 16} {bits : Word} {i : Instr} {operands : Word → Instr}

theorem encodedBy_fixed (h : decode bits = some i) : EncodedBy 0xFFFF bits fun _ => i := by
  intro w hw
  have hbits : w = bits := BitVec.and_allOnes.symm.trans hw
  exact hbits ▸ h

theorem encodedBy_family (h : ∀ w, opOf w = op → decode w = some (operands w)) :
    EncodedBy 0xF000 (packAddr op 0) operands :=
  fun w hw => h w ((familyMask_iff w op).1 hw)

theorem encodedBy_pair (h : ∀ w, opOf w = op → nOf w = n → decode w = some (operands w)) :
    EncodedBy 0xF00F (pack4 op 0 0 n) operands := by
  intro w hw
  obtain ⟨hop, hn⟩ := (pairMask_iff w op n).1 hw
  exact h w hop hn

end

theorem decode_of_op2 {w : Word} (h : opOf w = 0x2) : decode w = some (.call (nnnOf w)) := by
  simp [decode, h]

theorem decode_encode_call (nnn : Addr12) : decode (encode (.call nnn)) = some (.call nnn) := by
  have hop : opOf (encode (.call nnn)) = 0x2 := opOf_packAddr 0x2 nnn
  have hnnn : nnnOf (encode (.call nnn)) = nnn := nnnOf_packAddr 0x2 nnn
  rw [decode_of_op2 hop, hnnn]

/-- No row of families 5 and 9 has a low nibble other than 0. -/
theorem decode_eq_none_of_op5_or_op9 {w : Word} (hop : opOf w = 0x5 ∨ opOf w = 0x9) (hn : nOf w ≠ 0) :
    decode w = none := by
  rcases hop with hop | hop
  · simp [decode, hop, hn]
  · simp [decode, hop, hn]

end Sys2Proof.Machine
end

section
/-! Control transfer (41_flow.md): jumps, calls and returns, and the skips on registers. -/

namespace Sys2Proof.Machine

/-- Every operation may write PC, so setting it needs no room in a frame. -/
theorem onlyWrites_setPc (s : State) (target : Word) : OnlyWrites {} s (s.setPc target) := by
  simp [OnlyWrites]

/-- A step that cannot fetch faults with no opcode (40_engine.md R132). -/
theorem step_eq_memoryOutOfRange {s : State} (hkw : s.kw = .notWaiting) (hpc : 0xFFE < s.pc.toNat) :
    step s = .fault (.memoryOutOfRange none s.pc) := by
  simp only [step, hkw, fetch_outside s hpc, fetchError]

/-- A frame kept by two operations is kept by both in turn. -/
theorem OnlyWrites.trans {w : Writes} {s t u : State} (hst : OnlyWrites w s t) (htu : OnlyWrites w t u) :
    OnlyWrites w s u := by
  obtain ⟨regs, mem, keys, index, stack, delay, sound, keyWait, frame, redraw, draws, source⟩ := hst
  obtain ⟨regs', mem', keys', index', stack', delay', sound', keyWait', frame', redraw', draws', source'⟩ := htu
  exact ⟨fun r h => (regs' r h).trans (regs r h), fun a h => (mem' a h).trans (mem a h),
    fun k h => (keys' k h).trans (keys k h), fun h => (index' h).trans (index h),
    fun h => ⟨(stack' h).1.trans (stack h).1, (stack' h).2.trans (stack h).2⟩, fun h => (delay' h).trans (delay h),
    fun h => (sound' h).trans (sound h), fun h => (keyWait' h).trans (keyWait h),
    fun h c r => (frame' h c r).trans (frame h c r), fun h => (redraw' h).trans (redraw h),
    fun h => (draws' h).trans (draws h), source'.trans source⟩

/-! ## Call and return (R160, R162, R169) -/

/-- All a CALL with a free slot does. -/
theorem exec_call_next (nnn : Addr12) (s : State) (h : s.sp.val < 16) :
    ∃ t, exec (.call nnn) s = .next t ∧ t.stack = s.stack.set s.sp.val (s.pc + 2) h ∧ t.sp.val = s.sp.val + 1 ∧
      t.pc.toNat = nnn.toNat ∧ OnlyWrites { stack := true } s t :=
  have hcall := exec_call_free nnn s h
  ⟨_, hcall, rfl, rfl, addrOperand_toNat nnn, exec_onlyWrites (.call nnn) s _ hcall⟩

/-- All a RET with a slot in use does. -/
theorem exec_ret_next (s : State) (h : 0 < s.sp.val) :
    ∃ t, exec .ret s = .next t ∧ t.pc = s.stack[s.sp.val - 1] ∧ t.sp.val = s.sp.val - 1 ∧ t.stack = s.stack ∧
      OnlyWrites { stack := true } s t :=
  have hret := exec_ret_used s h
  ⟨_, hret, rfl, rfl, rfl, exec_onlyWrites .ret s _ hret⟩

/-- The bytes 00 EE at a fetchable PC are executed as RET. -/
theorem step_eq_ret {s : State} (hkw : s.kw = .notWaiting) (hpc : s.pc.toNat ≤ 0xFFE)
    (hhigh : Memory.read s.mem s.pc.toNat = 0x00) (hlow : Memory.read s.mem (s.pc.toNat + 1) = 0xEE) :
    step s = exec .ret s := by
  have hfetch := fetch_inside s hpc
  rw [hhigh, hlow] at hfetch
  exact step_eq_exec hkw hfetch (by decide)

/-- Settles O17: the call stacks PC + 2 in slot SP and goes to a RET, which takes it from that slot; no slot below is
touched. -/
theorem callThenReturnComesBack : Obligations.CallThenReturnComesBack := by
  intro s nnn hkw hsp hnnn hfetch hhigh hlow
  have hfree : s.sp.val < 16 := by omega
  obtain ⟨t, hcall, htstack, htsp, htpc, hst⟩ := exec_call_next nnn s hfree
  obtain ⟨u, hret, hupc, husp, hustack, htu⟩ := exec_ret_next t (by omega)
  have ⟨_, hmem, _, _, _, _, _, htkw, _⟩ := hst
  have hread : ∀ a, Memory.read t.mem a = Memory.read s.mem a := fun a => hmem a id
  have hslot : t.sp.val - 1 = s.sp.val := by omega
  have hstep : step t = exec .ret t := by
    apply step_eq_ret ((htkw rfl).trans hkw)
    · rwa [htpc]
    · rwa [hread, htpc]
    · rwa [hread, htpc]
  refine ⟨t, u, (step_eq_exec hkw hfetch (decode_encode_call nnn)).trans hcall, hstep.trans hret, ?_,
    Fin.ext (husp.trans hslot), fun k hk => ?_, hst.trans htu⟩
  · simp [hupc, htstack, hslot]
  · rw [hustack, htstack]
    exact Vector.getElem_set_ne hfree k.isLt (Nat.ne_of_gt hk)

/-- Settles O14: the two cases of RET. -/
theorem retPopsTheReturnAddress : Obligations.RetPopsTheReturnAddress :=
  ⟨encodedBy_fixed (by decide), exec_ret_next, exec_ret_empty⟩

/-- Settles O16: the two cases of CALL. -/
theorem callPushesTheReturnAddress : Obligations.CallPushesTheReturnAddress := by
  refine ⟨encodedBy_family (op := 0x2) fun w => decode_of_op2, fun nnn s h => ?_,
    fun nnn s h => exec_call_full nnn s h.ge⟩
  obtain ⟨t, hcall, hstack, hsp, hpc, hframe⟩ := exec_call_next nnn s h
  refine ⟨t, hcall, ?_, fun k hk => ?_, hsp, hpc, hframe⟩
  · rw [hstack]
    exact Vector.getElem_set_self h
  · rw [hstack]
    exact Vector.getElem_set_ne h k.isLt hk.symm

/-! ## Jumps (R161, R167) -/

/-- Settles O15: JP sets PC and nothing else, to itself as to 0xFFF, where no word can be fetched. -/
theorem jpSetsPc : Obligations.JpSetsPc := by
  refine ⟨encodedBy_family (op := 0x1) fun w hop => by simp [decode, hop], fun nnn s => ?_, fun nnn s hself => ?_,
    fun s t hkw h => ?_⟩
  · exact ⟨_, rfl, addrOperand_toNat nnn, onlyWrites_setPc s _⟩
  · have hpc : addrOperand nnn = s.pc := BitVec.eq_of_toNat_eq ((addrOperand_toNat nnn).trans hself.symm)
    simp only [exec, execJp, hpc]
    rfl
  · have hpc : 0xFFE < (addrOperand 0xFFF).toNat := by decide
    cases h
    exact step_eq_memoryOutOfRange hkw hpc

/-- Settles O19: the sum of a byte and a 12-bit address fits PC. -/
theorem jpV0AddsV0 : Obligations.JpV0AddsV0 := by
  refine ⟨encodedBy_family (op := 0xB) fun w hop => by simp [decode, hop], fun nnn s => ?_⟩
  exact ⟨_, rfl, offsetTarget_toNat nnn s, onlyWrites_setPc s _⟩

/-! ## The skips on registers (R163 to R166) -/

/-- All a skip does, where p makes its condition true and q makes it false. -/
theorem exists_next_skipIf (s : State) {c : Bool} {p q : Prop} (hp : p → c = true) (hq : q → c = false) :
    ∃ t, (.next (s.skipIf c) : Result) = .next t ∧ (p → t.pc = s.pc + 4) ∧ (q → t.pc = s.pc + 2) ∧
      OnlyWrites {} s t := by
  refine ⟨_, rfl, fun h => ?_, fun h => ?_, onlyWrites_setPc s _⟩
  · simp [hp h]
  · simp [hq h]

/-- Settles O18: the four skips are one, on the equality of two bytes or its negation. -/
theorem registerSkips : Obligations.RegisterSkips := by
  refine ⟨encodedBy_family (op := 0x3) fun w hop => by simp [decode, hop],
    encodedBy_family (op := 0x4) fun w hop => by simp [decode, hop],
    encodedBy_pair (op := 0x5) (n := 0) fun w hop hn => by simp [decode, hop, hn],
    encodedBy_pair (op := 0x9) (n := 0) fun w hop hn => by simp [decode, hop, hn],
    fun w => decode_eq_none_of_op5_or_op9, fun x nn s => ?_, fun x nn s => ?_, fun x y s => ?_, fun x y s => ?_,
    fun t => step_eq_memoryOutOfRange⟩
  · exact exists_next_skipIf s beq_iff_eq.2 beq_eq_false_iff_ne.2
  · exact exists_next_skipIf s bne_iff_ne.2 bne_eq_false_iff_eq.2
  · exact exists_next_skipIf s beq_iff_eq.2 beq_eq_false_iff_ne.2
  · exact exists_next_skipIf s bne_iff_ne.2 bne_eq_false_iff_eq.2

end Sys2Proof.Machine
end

section
/-! Register loads and the ALU (42_alu.md): an instruction ends in one write of a register, or in one and a flag. -/

namespace Sys2Proof.Machine

/-- The words 8xyn are decoded by their low nibble (30_encoding.md R103). -/
theorem encodedBy_op8 {n : Fin 16} {operands : Reg → Reg → Instr}
    (h : ∀ x y, decodePair x y n.val = some (operands x y)) :
    EncodedBy 0xF00F (pack4 0x8 0 0 n) fun w => operands (xOf w) (yOf w) := by
  refine encodedBy_pair fun w hop hn => ?_
  rw [decode_of_op8 w hop, hn, h]

/-- All a write of one register does. -/
theorem exists_next_writeResult (x : Reg) (b : Byte) (s : State) :
    ∃ t, writeResult x b s = .next t ∧ t.getV x = b ∧ t.pc = s.pc + 2 ∧ OnlyWrites { regs := fun r => r = x } s t :=
  ⟨_, rfl, State.getV_setV_same s x b, rfl, exec_onlyWrites (.ldImm x b) s _ rfl⟩

/-- All a write of a register and then of the flag does: the result stands unless its register is VF. -/
theorem exists_next_writeResultAndFlag (x : Reg) (b flag : Byte) (s : State) :
    ∃ t, writeResultAndFlag x b flag s = .next t ∧ (x ≠ 0xF → t.getV x = b) ∧ t.getV 0xF = flag ∧
      t.pc = s.pc + 2 ∧ OnlyWrites { regs := fun r => r = x ∨ r = 0xF } s t := by
  refine ⟨_, rfl, fun hx => ?_, getV_vf_of_writeResultAndFlag rfl, rfl, ?_⟩
  · simp [State.getV_setV_setVF, hx]
  · simp +contextual [OnlyWrites, State.getV_setV_setVF]

/-! ## Results and flags as numbers (R207 to R212) -/

theorem toNat_sub_byte (a b : Byte) : (a - b).toNat = (256 + a.toNat - b.toNat) % 256 := by
  rw [BitVec.toNat_sub]
  omega

theorem flagByte_toNat (cond : Bool) : (flagByte cond).toNat = cond.toNat := by
  cases cond
  · rfl
  · rfl

theorem lowBitFlag_toNat (a : Byte) : (lowBitFlag a).toNat = a.toNat % 2 := by
  rw [lowBitFlag, flagByte_toNat, BitVec.getLsbD, Nat.toNat_testBit, pow_zero, Nat.div_one]

theorem highBitFlag_toNat (a : Byte) : (highBitFlag a).toNat = a.toNat / 128 := by
  have hbit : (highBitFlag a).toNat = a.toNat / 128 % 2 := by
    rw [highBitFlag, flagByte_toNat, BitVec.getLsbD, Nat.toNat_testBit]
  omega

/-- What the statements on shifts call a is the register SHIFT_SOURCE names (00_scope.md R9). -/
theorem shiftOperand_eq {x y : Reg} {s : State} {a : Byte} (hx : s.shiftSource = .vx → a = s.getV x)
    (hy : s.shiftSource = .vy → a = s.getV y) : shiftOperand x y s = a := by
  rcases shiftOperand_cases x y s with ⟨hs, e⟩ | ⟨hs, e⟩
  · exact e.trans (hx hs).symm
  · exact e.trans (hy hs).symm

/-! ## Immediates, assignment and logic (R200 to R205) -/

/-- Settles O20: LD Vx, nn is one write of a register. -/
theorem ldImmSetsTheRegister : Obligations.LdImmSetsTheRegister :=
  ⟨encodedBy_family (op := 0x6) fun w hop => by simp [decode, hop], exists_next_writeResult⟩

/-- Settles O21: ADD Vx, nn writes the sum of two bytes, and no flag. -/
theorem addImmWrapsAndLeavesVf : Obligations.AddImmWrapsAndLeavesVf := by
  refine ⟨encodedBy_family (op := 0x7) fun w hop => by simp [decode, hop], fun x nn s => ?_⟩
  obtain ⟨t, hexec, hx, hframe⟩ := exists_next_writeResult x (s.getV x + nn) s
  exact ⟨t, hexec, hx ▸ BitVec.toNat_add _ _, hframe⟩

/-- Settles O22: each of the four writes a byte whose bits the library gives. -/
theorem assignAndLogicBitByBit : Obligations.AssignAndLogicBitByBit := by
  refine ⟨encodedBy_op8 (n := 0) fun _ _ => rfl, encodedBy_op8 (n := 1) fun _ _ => rfl,
    encodedBy_op8 (n := 2) fun _ _ => rfl, encodedBy_op8 (n := 3) fun _ _ => rfl,
    fun x y s => ⟨exists_next_writeResult x (s.getV y) s, ?_, ?_, ?_⟩⟩
  · obtain ⟨t, hexec, hx, hframe⟩ := exists_next_writeResult x (s.getV x ||| s.getV y) s
    exact ⟨t, hexec, fun b _ => hx ▸ BitVec.getLsbD_or, hframe⟩
  · obtain ⟨t, hexec, hx, hframe⟩ := exists_next_writeResult x (s.getV x &&& s.getV y) s
    exact ⟨t, hexec, fun b _ => hx ▸ BitVec.getLsbD_and, hframe⟩
  · obtain ⟨t, hexec, hx, hframe⟩ := exists_next_writeResult x (s.getV x ^^^ s.getV y) s
    exact ⟨t, hexec, fun b _ => hx ▸ BitVec.getLsbD_xor, hframe⟩

/-! ## Addition and subtraction with their flags (R208, R209, R211) -/

/-- Settles O23: the sum, then its carry. -/
theorem addRegSetsCarry : Obligations.AddRegSetsCarry := by
  refine ⟨encodedBy_op8 (n := 4) fun _ _ => rfl, fun x y s => ?_⟩
  obtain ⟨t, hexec, hx, hvf, hframe⟩ := exists_next_writeResultAndFlag x (s.getV x + s.getV y)
    (carryFlag (s.getV x) (s.getV y)) s
  exact ⟨t, hexec, fun h => hx h ▸ BitVec.toNat_add _ _, hvf.trans (carryFlag_eq _ _), hframe⟩

/-- What SUB and SUBN have in common: V[x] takes a - b, then VF whether no borrow was needed. -/
theorem exists_next_difference (x : Reg) (a b : Byte) (s : State) :
    ∃ t, writeResultAndFlag x (a - b) (noBorrowFlag a b) s = .next t ∧
      (x ≠ 0xF → (t.getV x).toNat = (256 + a.toNat - b.toNat) % 256) ∧
      t.getV 0xF = (if a.toNat ≥ b.toNat then 1 else 0) ∧
      t.pc = s.pc + 2 ∧ OnlyWrites { regs := fun r => r = x ∨ r = 0xF } s t := by
  obtain ⟨t, hexec, hx, hvf, hframe⟩ := exists_next_writeResultAndFlag x (a - b) (noBorrowFlag a b) s
  exact ⟨t, hexec, fun h => hx h ▸ toNat_sub_byte a b, hvf.trans (noBorrowFlag_eq a b), hframe⟩

/-- Settles O24: V[x] - V[y]. -/
theorem subSetsNoBorrow : Obligations.SubSetsNoBorrow :=
  ⟨encodedBy_op8 (n := 5) fun _ _ => rfl, fun x y s => exists_next_difference x (s.getV x) (s.getV y) s⟩

/-- Settles O25: V[y] - V[x]. -/
theorem subnSetsNoBorrow : Obligations.SubnSetsNoBorrow :=
  ⟨encodedBy_op8 (n := 7) fun _ _ => rfl, fun x y s => exists_next_difference x (s.getV y) (s.getV x) s⟩

/-! ## Shifts (R210, R212) -/

/-- Settles O26: a shift right halves the register SHIFT_SOURCE names, and the flag is the remainder. -/
theorem shrShiftsOutBitZero : Obligations.ShrShiftsOutBitZero := by
  refine ⟨encodedBy_op8 (n := 6) fun _ _ => rfl, fun x y s a hvx hvy => ?_⟩
  obtain ⟨t, hexec, hx, hvf, hframe⟩ := exists_next_writeResultAndFlag x (a >>> 1) (lowBitFlag a) s
  refine ⟨t, ?_, fun h => hx h ▸ BitVec.toNat_ushiftRight a 1, hvf ▸ lowBitFlag_toNat a, hframe⟩
  rw [← hexec, ← shiftOperand_eq hvx hvy]
  rfl

/-- Settles O27: a shift left doubles the register SHIFT_SOURCE names, and the flag is the bit that is lost. -/
theorem shlShiftsOutBitSeven : Obligations.ShlShiftsOutBitSeven := by
  refine ⟨encodedBy_op8 (n := 0xE) fun _ _ => rfl, fun x y s a hvx hvy => ?_⟩
  obtain ⟨t, hexec, hx, hvf, hframe⟩ := exists_next_writeResultAndFlag x (a <<< 1) (highBitFlag a) s
  refine ⟨t, ?_, fun h => ?_, hvf ▸ highBitFlag_toNat a, hframe⟩
  · rw [← hexec, ← shiftOperand_eq hvx hvy]
    rfl
  · rw [hx h, BitVec.toNat_shiftLeft, Nat.shiftLeft_eq]

/-! ## The random byte (R213) -/

/-- Settles O28: a bit of the conjunction with nn is 0 where nn's is, and the draw's where nn's is 1. -/
theorem rndMasksAFreshDraw : Obligations.RndMasksAFreshDraw := by
  refine ⟨encodedBy_family (op := 0xC) fun w hop => by simp [decode, hop], fun x nn s => ?_⟩
  obtain ⟨t, hexec, hx, hpc, _, _, _, _, _, _, _, _, _, _, hdraws, _⟩ :=
    exists_next_writeResult x (Config.freeByte s.draws &&& nn) (s.skipDraws 1)
  refine ⟨t, hexec, fun b _ hb => ?_, fun b _ hb => ?_, hdraws rfl, hpc, exec_onlyWrites (.rnd x nn) s t hexec⟩
  · rw [hx, BitVec.getLsbD_and, hb, Bool.and_false]
  · rw [hx, BitVec.getLsbD_and, hb, Bool.and_true]

end Sys2Proof.Machine
end

section
/-! Addresses in I (43_index_memory.md R250 to R253): the constant, the sum, and the glyph of a digit, which lies in the
reserved region for every FONT_BASE. -/

namespace Sys2Proof.Machine

/-- The words Fxnn are decoded by their low byte (30_encoding.md R103). -/
theorem encodedBy_opF {nn : Byte} {operands : Reg → Instr} (h : ∀ x, decodeMisc x nn.toNat = some (operands x)) :
    EncodedBy 0xF0FF (packByte 0xF 0 nn) fun w => operands (xOf w) := by
  intro w hw
  obtain ⟨hop, hnn⟩ := (singleMask_iff w 0xF nn).1 hw
  rw [decode_of_opF w hop, hnn, h]

/-! ## LD I and ADD I (R250, R251) -/

/-- Settles O31: LD I is one write of I. -/
theorem ldISetsI : Obligations.LdISetsI := by
  refine ⟨encodedBy_family (op := 0xA) fun w hop => by simp [decode, hop], fun nnn s => ?_⟩
  exact ⟨_, rfl, addrOperand_toNat nnn, rfl, exec_onlyWrites (.ldI nnn) s _ rfl⟩

/-- Settles O32: the sum of two words is that of the numbers modulo 2^16, and a byte widened is the same number. -/
theorem addIWrapsAtSixteenBits : Obligations.AddIWrapsAtSixteenBits := by
  refine ⟨encodedBy_opF (nn := 0x1E) fun _ => rfl, fun x s => ?_⟩
  have hsum : (s.i + byteOperand (s.getV x)).toNat = (s.i.toNat + (s.getV x).toNat) % 65536 := by
    rw [BitVec.toNat_add, byteOperand_toNat]
  exact ⟨_, rfl, hsum, rfl, exec_onlyWrites (.addIVx x) s _ rfl⟩

/-! ## LD F (R252, R253) -/

/-- What a successful LD F, Vx answers: V[x] was a digit, I is the address of its glyph, and memory is as it was. -/
theorem exec_ldFVx_next {x : Reg} {s t : State} (h : exec (.ldFVx x) s = .next t) :
    (s.getV x).toNat ≤ 0xF ∧ t.i.toNat = fontBase + 5 * (s.getV x).toNat ∧ t.mem = s.mem := by
  obtain ⟨hdigit, rfl⟩ := next_of_exists_or_fault (exec_ldFVx_cases x s) h
  exact ⟨Nat.le_of_lt_succ hdigit, glyphAddress_toNat ⟨(s.getV x).toNat, hdigit⟩, rfl⟩

/-- Settles O33: the two cases of LD F. -/
theorem ldFPointsAtTheGlyph : Obligations.LdFPointsAtTheGlyph := by
  refine ⟨encodedBy_opF (nn := 0x29) fun _ => rfl, fun x s hdigit => ?_, fun x s hover => ?_⟩
  · obtain ⟨_, hexec⟩ := (exec_ldFVx_cases x s).resolve_right (not_and_of_not_left _ hdigit.not_gt)
    obtain ⟨-, hi, -⟩ := exec_ldFVx_next hexec
    exact ⟨_, hexec, hi, rfl, exec_onlyWrites (.ldFVx x) s _ hexec⟩
  · rcases exec_ldFVx_cases x s with ⟨hdigit, -⟩ | ⟨-, hexec⟩
    · exact absurd hover (Nat.not_lt.2 (Nat.le_of_lt_succ hdigit))
    · exact hexec

/-- The five rows of a glyph lie below 0x200. -/
theorem inRange_glyph {d : Nat} (h : d ≤ 0xF) : InRange (fontBase + 5 * d) 5 := by
  have hfont : fontBase + 16 * 5 ≤ 0x200 := fontBase_le
  exact .inr (by omega)

/-- With its rows in memory DRW completes. -/
theorem exists_next_drw (x y : Reg) {n : RowCount} {s : State} (h : InRange s.i.toNat n.val) :
    ∃ t, exec (.drw x y n) s = .next t := by
  obtain ⟨-, hexec⟩ := (exec_drw_cases x y n s).resolve_right (not_and_of_not_left _ (not_not_intro h))
  exact ⟨_, hexec⟩

/-- Settles O34: the glyph of every digit lies in memory, and in a new core, where no byte is listed, its rows read as
FONT_DATA. -/
theorem glyphsCanAlwaysBeDrawn : Obligations.GlyphsCanAlwaysBeDrawn := by
  refine ⟨fun s t x a b h => ?_, fun s t x d k hnew hd h => ?_⟩
  · obtain ⟨hdigit, hi, -⟩ := exec_ldFVx_next h
    exact exists_next_drw a b (n := 5) (hi ▸ inRange_glyph hdigit)
  · obtain ⟨-, hi, hmem⟩ := exec_ldFVx_next h
    calc Memory.read t.mem (t.i.toNat + k.val)
        = Memory.read State.create.mem (fontBase + 5 * d.val + k.val) := by rw [hmem, hnew, hi, hd]
      _ = unlistedByte (fontBase + 5 * d.val + k.val) := rfl
      _ = (Config.glyph d)[k] := unlistedByte_glyph d k

end Sys2Proof.Machine
end

section
/-! Transfers between registers and memory (43_index_memory.md R254 to R257): the decimal digits and the blocks, all
from I onward, with I left alone. -/

namespace Sys2Proof.Machine

/-! ## LD B (R254) -/

/-- No digit of a byte is cut: each is below ten. -/
theorem decimalDigits_toNat (b : Byte) : (decimalDigits b)[0].toNat = b.toNat / 100 ∧
    (decimalDigits b)[1].toNat = b.toNat / 10 % 10 ∧ (decimalDigits b)[2].toNat = b.toNat % 10 := by
  simp only [decimalDigits, List.getElem_cons_zero, List.getElem_cons_succ, BitVec.toNat_ofNat]
  omega

/-- What a successful LD B, Vx leaves in memory: the decimal digits of V[x] from I onward. -/
theorem exec_ldBVx_next {x : Reg} {s t : State} (h : exec (.ldBVx x) s = .next t) (k : Fin 3) :
    Memory.read t.mem (s.i.toNat + k.val) = (decimalDigits (s.getV x))[k] := by
  obtain ⟨-, rfl⟩ := next_of_and_or_fault (exec_ldBVx_cases x s) h
  exact Memory.read_writeAll_inside s.mem s.i.toNat k.val (decimalDigits (s.getV x)) k.isLt

/-- Settles O35: the two cases of LD B. -/
theorem ldBStoresDecimalDigits : Obligations.LdBStoresDecimalDigits := by
  refine ⟨encodedBy_opF (nn := 0x33) fun _ => rfl, fun x s hin => ?_, fun x s hout => ?_⟩
  · obtain ⟨-, hexec⟩ := (exec_ldBVx_cases x s).resolve_right (not_and_of_not_left _ hin.not_gt)
    have hstored := exec_ldBVx_next hexec
    obtain ⟨hundreds, htens, hones⟩ := decimalDigits_toNat (s.getV x)
    exact ⟨_, hexec, hstored 0 ▸ hundreds, hstored 1 ▸ htens, hstored 2 ▸ hones, rfl,
      exec_onlyWrites (.ldBVx x) s _ hexec⟩
  · exact ((exec_ldBVx_cases x s).resolve_left (not_and_of_not_left _ hout.not_ge)).2

/-! ## LD [I] and its inverse (R255, R256) -/

/-- Settles O36: the two cases of LD [I], Vx. -/
theorem ldMemStoresRegisters : Obligations.LdMemStoresRegisters := by
  refine ⟨encodedBy_opF (nn := 0x55) fun _ => rfl, fun x s hin => ?_, fun x s hout => ?_⟩
  · obtain ⟨-, hexec⟩ := (exec_ldMemVx_cases x s).resolve_right (not_and_of_not_left _ hin.not_gt)
    obtain ⟨hpc, -, hstored⟩ := exec_ldMemVx_next hexec
    exact ⟨_, hexec, hstored, hpc, exec_onlyWrites (.ldMemVx x) s _ hexec⟩
  · exact ((exec_ldMemVx_cases x s).resolve_left (not_and_of_not_left _ hout.not_ge)).2

/-- All an LD Vx, [I] with its bytes in memory does. -/
theorem exists_next_ldVxMem (x : Reg) (s : State) (h : s.i.toNat + x.val ≤ 0xFFF) :
    ∃ t, exec (.ldVxMem x) s = .next t ∧ (∀ r ≤ x, t.getV r = Memory.read s.mem (s.i.toNat + r.val)) ∧
      t.pc = s.pc + 2 ∧ OnlyWrites { regs := fun r => r ≤ x } s t := by
  obtain ⟨-, hexec⟩ := (exec_ldVxMem_cases x s).resolve_right (not_and_of_not_left _ h.not_gt)
  refine ⟨_, hexec, fun r hr => ?_, rfl, exec_onlyWrites (.ldVxMem x) s _ hexec⟩
  have hlt : r.val < x.val + 1 := Nat.lt_succ_of_le hr
  simp [State.getV_setLow, hlt]

/-- Settles O37: the two cases of LD Vx, [I]. -/
theorem ldVxMemLoadsRegisters : Obligations.LdVxMemLoadsRegisters :=
  ⟨encodedBy_opF (nn := 0x65) fun _ => rfl, exists_next_ldVxMem, fun x s hout =>
    ((exec_ldVxMem_cases x s).resolve_left (not_and_of_not_left _ hout.not_ge)).2⟩

/-- Settles O38: the load reads the bytes the store left, in the same range, so it completes where the store did. -/
theorem blockStoreThenLoadRestores : Obligations.BlockStoreThenLoadRestores := by
  intro s t u x hstore hmem hi
  obtain ⟨hin, -⟩ := next_of_and_or_fault (exec_ldMemVx_cases x s) hstore
  obtain ⟨-, -, hstored⟩ := exec_ldMemVx_next hstore
  obtain ⟨w, hload, hloaded, -, hregs, -⟩ := exists_next_ldVxMem x u (hi ▸ hin)
  refine ⟨w, hload, fun r => ⟨fun hr => ?_, fun hr => hregs r (Fin.not_le.2 hr)⟩⟩
  calc w.getV r
      = Memory.read u.mem (u.i.toNat + r.val) := hloaded r hr
    _ = Memory.read t.mem (s.i.toNat + r.val) := by rw [hmem, hi]
    _ = s.getV r := hstored r hr

end Sys2Proof.Machine
end

section
/-! The display (44_display.md R290 to R295): what CLS and DRW do to the pixels, to VF and to REDRAW, and that no other step
touches a pixel or REDRAW. -/

namespace Sys2Proof.Machine

/-! ## Clear (R290) -/

/-- Settles O41: CLS is one write of the framebuffer and one of REDRAW. -/
theorem clsClearsTheFrame : Obligations.ClsClearsTheFrame :=
  ⟨encodedBy_fixed (by decide), fun s => ⟨_, rfl, pixel_clearFrame, rfl, rfl, exec_onlyWrites .cls s _ rfl⟩⟩

/-! ## Draw (R291 to R293) -/

/-- A 1 bit of the sprite that `drw x y n` draws in s lands on column c and row q. -/
def DrwCovers (s : State) (x y : Reg) (n : RowCount) (c : Fin 64) (q : Fin 32) : Prop :=
  SpriteCovers s (s.getV x).toNat (s.getV y).toNat n.val c.val q.val

section
variable {x y : Reg} {n : RowCount} {s t : State}

/-- The drawing of DRW flips the pixels its sprite covers and records a hit on any of them. -/
theorem drawSprite_flips_drwCovers (s : State) (x y : Reg) (n : RowCount) : Flips (DrwCovers s x y n) (s.fb, false)
    (drawSprite (s.getV x).toNat (s.getV y).toNat (spriteRows s n.val) s.fb) := by
  have hrows : (spriteRows s n.val).length ≤ 32 := by
    simp only [spriteRows, List.length_map, List.length_range]
    omega
  exact (drawSprite_flips _ _ _ s.fb hrows).congr (rowsCover_spriteRows s _ _ n.val)

theorem collisionFlag_eq_one (hit : Bool) : collisionFlag hit = 1 ↔ hit = true := by
  cases hit <;> decide

/-- What a successful DRW does to the pixels and to VF. -/
theorem exec_drw_flips (h : exec (.drw x y n) s = .next t) :
    (∀ c q, DrwCovers s x y n c q → t.fb.pixel c q = !s.fb.pixel c q) ∧
    (∀ c q, ¬ DrwCovers s x y n c q → t.fb.pixel c q = s.fb.pixel c q) ∧
    (t.getV 0xF = 1 ↔ ∃ c q, DrwCovers s x y n c q ∧ s.fb.pixel c q = true) := by
  obtain ⟨-, rfl⟩ := next_of_and_or_fault (exec_drw_cases x y n s) h
  obtain ⟨hflip, hkeep, hhit⟩ := drawSprite_flips_drwCovers s x y n
  refine ⟨hflip, hkeep, ?_⟩
  rw [State.getV_advance, State.getV_setVF, if_pos rfl, collisionFlag_eq_one, hhit]
  exact or_iff_right Bool.false_ne_true

theorem exec_drw_redraw (h : exec (.drw x y n) s = .next t) : t.redraw = true := by
  obtain ⟨-, rfl⟩ := next_of_and_or_fault (exec_drw_cases x y n s) h
  rfl

/-- Without a collision DRW leaves 0 in VF. -/
theorem exec_drw_vf_eq_zero (h : exec (.drw x y n) s = .next t) (hvf : t.getV 0xF ≠ 1) : t.getV 0xF = 0 := by
  obtain ⟨hit, hflag⟩ := exec_drw_vf h
  rw [hflag] at hvf ⊢
  exact (flagByte_cases hit).resolve_right hvf

end

/-- Settles O42: the two cases of DRW, its pixels and its flag by `exec_drw_flips`. -/
theorem drwFlipsTheSpritePixels : Obligations.DrwFlipsTheSpritePixels := by
  refine ⟨encodedBy_family (op := 0xD) fun w hop => by simp [decode, hop], fun x y n s hin => ?_,
    fun x y n s hn hout => ?_⟩
  · obtain ⟨t, hexec⟩ := exists_next_drw x y hin
    obtain ⟨hflip, hkeep, hvf⟩ := exec_drw_flips hexec
    refine ⟨t, hexec, fun c q => ⟨hflip c q, hkeep c q⟩, ?_, ?_, exec_drw_redraw hexec, exec_pc hexec,
      exec_onlyWrites (.drw x y n) s t hexec⟩
    · rintro ⟨c, q, hpixel, hcovers⟩
      exact hvf.2 ⟨c, q, hcovers, hpixel⟩
    · refine fun hnone => exec_drw_vf_eq_zero hexec fun hone => hnone ?_
      obtain ⟨c, q, hcovers, hpixel⟩ := hvf.1 hone
      exact ⟨c, q, hpixel, hcovers⟩
  · have hnot : ¬ InRange s.i.toNat n.val := not_or.2 ⟨hn.ne', hout.not_ge⟩
    exact ((exec_drw_cases x y n s).resolve_left (not_and_of_not_left _ hnot)).2

/-! ## The XOR inverse law (R294) -/

/-- A sprite covers by its address and its bytes alone. -/
theorem spriteCovers_congr {s u : State} {n : Nat} (hi : u.i = s.i)
    (hbytes : ∀ r < n, Memory.read u.mem (s.i.toNat + r) = Memory.read s.mem (s.i.toNat + r)) (cx cy c q : Nat) :
    SpriteCovers u cx cy n c q ↔ SpriteCovers s cx cy n c q := by
  refine exists_congr fun r => and_congr_right fun hr => ?_
  rw [hi, hbytes r hr]

/-- A byte is not 0 exactly when one of its bits, counted from the left, is 1. -/
theorem exists_bit_iff_ne_zero (a : Byte) : (∃ b < 8, a.getLsbD (7 - b) = true) ↔ a ≠ 0 := by
  constructor
  · rintro ⟨b, -, hbit⟩ rfl
    simp at hbit
  · intro hne
    by_contra hnone
    refine hne (BitVec.eq_of_getLsbD_eq fun k hk => ?_)
    have hbit : ¬ a.getLsbD (7 - (7 - k)) = true := fun hbit => hnone ⟨7 - k, by omega, hbit⟩
    have hcount : 7 - (7 - k) = k := by omega
    rw [hcount, Bool.not_eq_true] at hbit
    rw [hbit]
    exact BitVec.getLsbD_zero.symm

/-- Wrapping takes every 1 bit to some pixel, so a sprite covers nothing only if all its bytes are 0. -/
theorem exists_spriteCovers_iff (s : State) (cx cy n : Nat) :
    (∃ (c : Fin 64) (q : Fin 32), SpriteCovers s cx cy n c.val q.val) ↔
      ∃ r < n, Memory.read s.mem (s.i.toNat + r) ≠ 0 := by
  constructor
  · rintro ⟨c, q, r, hr, b, hb, hbit, -⟩
    exact ⟨r, hr, (exists_bit_iff_ne_zero _).1 ⟨b, hb, hbit⟩⟩
  · rintro ⟨r, hr, hne⟩
    obtain ⟨b, hb, hbit⟩ := (exists_bit_iff_ne_zero _).2 hne
    exact ⟨spriteColumn cx b, spriteRow cy r, r, hr, b, hb, hbit, rfl, rfl⟩

/-- Settles O43: the second draw covers the same pixels, so it flips them back, and it hits where the first one set a
pixel. -/
theorem drawingTwiceRestoresTheFrame : Obligations.DrawingTwiceRestoresTheFrame := by
  intro s t u x y n hfirst hfb hi hx hy hbytes
  obtain ⟨hin, -⟩ := next_of_and_or_fault (exec_drw_cases x y n s) hfirst
  obtain ⟨w, hsecond⟩ := exists_next_drw x y (s := u) (hi ▸ hin)
  obtain ⟨hflip, hkeep, -⟩ := exec_drw_flips hfirst
  obtain ⟨hflip', hkeep', hvf'⟩ := exec_drw_flips hsecond
  have hsame : ∀ c q, DrwCovers u x y n c q ↔ DrwCovers s x y n c q := fun c q => by
    rw [DrwCovers, hx, hy]
    exact spriteCovers_congr hi hbytes _ _ _ _
  have hvf : w.getV 0xF = 1 ↔ ∃ c q, DrwCovers s x y n c q ∧ s.fb.pixel c q = false := by
    refine hvf'.trans (exists_congr fun c => exists_congr fun q => ?_)
    rw [hsame, hfb]
    refine and_congr_right fun hcovers => ?_
    rw [hflip c q hcovers, Bool.not_eq_true']
  refine ⟨w, hsecond, fun c q => ?_, hvf, fun hblank => hvf.trans ?_⟩
  · by_cases hcovers : DrwCovers s x y n c q
    · rw [hflip' c q ((hsame c q).2 hcovers), hfb, hflip c q hcovers, Bool.not_not]
    · rw [hkeep' c q (mt (hsame c q).1 hcovers), hfb, hkeep c q hcovers]
  · rw [← exists_spriteCovers_iff s (s.getV x).toNat (s.getV y).toNat]
    exact exists_congr fun c => exists_congr fun q => and_iff_left_of_imp (hblank c q)

/-! ## The redraw flag (R295) -/

section
variable {i : Instr} {s t : State}

/-- The instructions that write the framebuffer: 00E0 and Dxyn. -/
def IsDisplay (i : Instr) : Prop := i = .cls ∨ ∃ x y n, i = .drw x y n

theorem decode_display_iff {w : Word} (hd : decode w = some i) :
    (decode w = some .cls ∨ ∃ x y n, decode w = some (.drw x y n)) ↔ IsDisplay i := by
  simp only [hd, Option.some.injEq, IsDisplay]

/-- A display instruction leaves REDRAW set. -/
theorem exec_display_redraw (hdisplay : IsDisplay i) (h : exec i s = .next t) : t.redraw = true := by
  rcases hdisplay with rfl | ⟨x, y, n, rfl⟩
  · cases h
    rfl
  · exact exec_drw_redraw h

/-- Only the frame of a display instruction holds the pixels or REDRAW. -/
theorem mayWrite_of_not_display (hdisplay : ¬ IsDisplay i) (s : State) :
    (mayWrite i s).frame = false ∧ (mayWrite i s).redraw = false := by
  cases i
  case cls => exact absurd (.inl rfl) hdisplay
  case drw x y n => exact absurd (.inr ⟨x, y, n, rfl⟩) hdisplay
  all_goals exact ⟨rfl, rfl⟩

/-- A step that changes REDRAW or a pixel executed a display instruction. -/
theorem display_of_step_changes (hstep : step s = .next t)
    (hne : t.redraw ≠ s.redraw ∨ ∃ c q, t.fb.pixel c q ≠ s.fb.pixel c q) :
    ∃ w i, fetch s = some w ∧ decode w = some i ∧ exec i s = .next t ∧ IsDisplay i := by
  rcases step_eq_next s t hstep with ⟨_, -, rfl⟩ | ⟨_, _, -, rfl⟩ | ⟨w, i, -, hfetch, hdecode, hexec⟩
  · simp at hne
  · simp at hne
  · refine ⟨w, i, hfetch, hdecode, hexec, by_contra fun hdisplay => ?_⟩
    obtain ⟨hframe, hredraw⟩ := mayWrite_of_not_display hdisplay s
    obtain ⟨-, -, -, -, -, -, -, -, hpixels, hflag, -⟩ := exec_onlyWrites i s t hexec
    rcases hne with hne | ⟨c, q, hne⟩
    · exact hne (hflag hredraw)
    · exact hne (hpixels hframe c q)

end

/-- Settles O44: a step that clears REDRAW would change it, and so would have executed an instruction that sets it. -/
theorem redrawFollowsTheDisplay : Obligations.RedrawFollowsTheDisplay := by
  refine ⟨fun s t w hkw hfetch hstep hshown => ?_, fun s t hstep hne => ?_, fun s t hstep hset => ?_, fun _ => rfl⟩
  · obtain ⟨i, hdecode⟩ : ∃ i, decode w = some i := by
      rcases hshown with h | ⟨_, _, _, h⟩ <;> exact ⟨_, h⟩
    exact exec_display_redraw ((decode_display_iff hdecode).1 hshown) (step_eq_exec hkw hfetch hdecode ▸ hstep)
  · obtain ⟨w, i, hfetch, hdecode, -, hdisplay⟩ := display_of_step_changes hstep hne
    exact ⟨w, hfetch, (decode_display_iff hdecode).2 hdisplay⟩
  · by_contra hclear
    obtain ⟨_, _, -, -, hexec, hdisplay⟩ := display_of_step_changes hstep (.inl fun e => hclear (e.trans hset))
    exact hclear (exec_display_redraw hdisplay hexec)

end Sys2Proof.Machine
end

section
/-! Key input and timer access (45_input_timers.md): the skips on a key, the timers, and the life of a key-wait. -/

namespace Sys2Proof.Machine

/-! ## The skips on a key (R320, R321) -/

/-- The words Exnn are decoded by their low byte (30_encoding.md R103). -/
theorem encodedBy_opE {nn : Byte} {operands : Reg → Instr} (h : ∀ x, decodeKey x nn.toNat = some (operands x)) :
    EncodedBy 0xF0FF (packByte 0xE 0 nn) fun w => operands (xOf w) := by
  intro w hw
  obtain ⟨hop, hnn⟩ := (singleMask_iff w 0xE nn).1 hw
  rw [decode_of_opE w hop, hnn, h]

section
variable {x : Reg} {k : Key} {s : State}

/-- SKP where V[x] names the key k. -/
theorem exec_skp_next (hx : (s.getV x).toNat = k.val) : exec (.skp x) s = .next (s.skipIf (s.getKey k)) := by
  obtain ⟨hkey, hexec⟩ | ⟨hover, -⟩ := exec_skp_cases x s
  · rw [hexec, (Fin.ext hx : ⟨_, hkey⟩ = k)]
  · omega

/-- SKNP where V[x] names the key k. -/
theorem exec_sknp_next (hx : (s.getV x).toNat = k.val) : exec (.sknp x) s = .next (s.skipIf (!s.getKey k)) := by
  obtain ⟨hkey, hexec⟩ | ⟨hover, -⟩ := exec_sknp_cases x s
  · rw [hexec, (Fin.ext hx : ⟨_, hkey⟩ = k)]
  · omega

end

theorem State.skipIf_not_pc (s : State) (c : Bool) :
    (s.skipIf (!c)).pc = if c = true then s.pc + 2 else s.pc + 4 := by
  cases c
  · rfl
  · rfl

/-- Settles O45: SKNP is SKP on the negation of the latch, and above 0xF only the error of each is left. -/
theorem keySkipsReadTheLatch : Obligations.KeySkipsReadTheLatch := by
  refine ⟨encodedBy_opE (nn := 0x9E) fun _ => rfl, encodedBy_opE (nn := 0xA1) fun _ => rfl,
    fun x k s hx => ⟨?_, ?_⟩, fun x s hover => ⟨?_, ?_⟩⟩
  · exact ⟨_, exec_skp_next hx, s.skipIf_pc_eq_skipTarget Iff.rfl, onlyWrites_setPc s _⟩
  · exact ⟨_, exec_sknp_next hx, s.skipIf_not_pc _, onlyWrites_setPc s _⟩
  · exact ((exec_skp_cases x s).resolve_left fun ⟨hkey, _⟩ => by omega).2
  · exact ((exec_sknp_cases x s).resolve_left fun ⟨hkey, _⟩ => by omega).2

/-! ## The timers (R322, R326, R327) -/

/-- Settles O46: the read is a write of a register, and the write sets DT alone. -/
theorem delayTimerReadAndWrite : Obligations.DelayTimerReadAndWrite := by
  refine ⟨encodedBy_opF (nn := 0x07) fun _ => rfl, encodedBy_opF (nn := 0x15) fun _ => rfl, fun x s => ?_,
    fun x s => ?_⟩
  · exact exists_next_writeResult x s.dt s
  · exact ⟨_, rfl, rfl, rfl, exec_onlyWrites (.ldDtVx x) s _ rfl⟩

/-- A tick beeps exactly when ST stands at 1 (60_exceptions.md R360). -/
theorem tickTimers_beeps_iff (s : State) : (tickTimers s).2 = true ↔ s.st = 1 :=
  beq_iff_eq

/-- Settles O47: the tick finds the value written in ST. -/
theorem soundTimerWriteThenTick : Obligations.SoundTimerWriteThenTick := by
  refine ⟨encodedBy_opF (nn := 0x18) fun _ => rfl, fun x s => ?_⟩
  exact ⟨_, rfl, rfl, rfl, exec_onlyWrites (.ldStVx x) s _ rfl, tickTimers_beeps_iff _⟩

/-! ## The key-wait (R323, R324) -/

/-- Settles O48: LD Vx, K is one write of KW. -/
theorem ldVxKStartsTheWait : Obligations.LdVxKStartsTheWait :=
  ⟨encodedBy_opF (nn := 0x0A) fun _ => rfl, fun x s => ⟨_, rfl, rfl, rfl, exec_onlyWrites (.ldVxK x) s _ rfl⟩⟩

theorem transactAll_append (before after : List HostOp) (s : State) :
    transactAll (before ++ after) s = transactAll after (transactAll before s) := by
  induction before generalizing s with
  | nil => rfl
  | cons op rest ih => exact ih (transact op s).1

/-- All a load does to the state: a ROM that fits lands in memory, and a longer one is refused (60_exceptions.md
R362). -/
theorem transact_load_cases (rom : List Byte) (s : State) :
    (rom.length ≤ Config.maxRom ∧
        transact (.load rom) s = (s.setMem (Memory.writeAll s.mem Config.progStart rom), .ok)) ∨
      (Config.maxRom < rom.length ∧ transact (.load rom) s = (s, .err (.romTooLarge rom.length))) := by
  by_cases h : Config.maxRom < rom.length
  · exact .inr ⟨h, congrArg (settle s) (if_pos h)⟩
  · exact .inl ⟨Nat.le_of_not_lt h, congrArg (settle s) (if_neg h)⟩

section
variable {x : Reg} {s t : State}

theorem transact_step_of_next (h : step s = .next t) : transact .step s = (t, .ok) :=
  congrArg (settle s) h

theorem setKey_waiting (h : s.kw = .waiting x) (k : Key) (pressed : Bool) : setKey k pressed s =
    if pressed then (s.setKeyLatch k pressed).setKw (.captured x k) else s.setKeyLatch k pressed := by
  simp only [setKey, h]

/-- In t a key is awaited for V[x], and PC and the registers are those of s, where the Fx0A ran. -/
structure AwaitsKey (x : Reg) (s t : State) : Prop where
  kw : t.kw = .waiting x
  pc : t.pc = s.pc
  regs : ∀ r, t.getV r = s.getV r

theorem awaitsKey_of_exec (h : exec (.ldVxK x) s = .next t) : AwaitsKey x s t := by
  cases h
  exact ⟨rfl, rfl, fun _ => rfl⟩

/-- A step is idle while a key is awaited, a release only clears its latch, and a load only writes memory. -/
theorem AwaitsKey.after_transact {op : HostOp} (h : AwaitsKey x s t) (hop : LeavesKeyWait op) :
    AwaitsKey x s (transact op t).1 := by
  obtain ⟨hkw, hpc, hregs⟩ := h
  cases op with
  | create | reset => exact hop.elim
  | step =>
    rw [transact_step_of_next (step_waiting t x hkw)]
    exact ⟨hkw, hpc, hregs⟩
  | load rom =>
    rcases transact_load_cases rom t with ⟨-, e⟩ | ⟨-, e⟩
    · rw [e]
      exact ⟨hkw, hpc, hregs⟩
    · rw [e]
      exact ⟨hkw, hpc, hregs⟩
  | setKey k pressed =>
    cases (hop : pressed = false)
    have hrelease : setKey k false t = t.setKeyLatch k false := setKey_waiting hkw k false
    simp only [transact, hrelease]
    exact ⟨hkw, hpc, hregs⟩
  | tickTimers | framebuffer | redrawPending | clearRedrawPending | setMetadata => exact ⟨hkw, hpc, hregs⟩

theorem AwaitsKey.after_transactAll {ops : List HostOp} (h : AwaitsKey x s t)
    (hops : ∀ op ∈ ops, LeavesKeyWait op) :
    AwaitsKey x s (transactAll ops t) := by
  induction ops generalizing t with
  | nil => exact h
  | cons op rest ih =>
    obtain ⟨hop, hrest⟩ := List.forall_mem_cons.1 hops
    exact ih (h.after_transact hop) hrest

/-- A press while a key is awaited captures it, and the step after it completes the Fx0A. -/
theorem AwaitsKey.press_then_step (h : AwaitsKey x s t) (k : Key) :
    ∃ u, transactAll [.setKey k true, .step] t = u ∧ (u.getV x).toNat = k.val ∧ u.pc = s.pc + 2 ∧
      u.kw = .notWaiting ∧ ∀ r, r ≠ x → u.getV r = s.getV r := by
  obtain ⟨hkw, hpc, hregs⟩ := h
  have hpress : setKey k true t = (t.setKeyLatch k true).setKw (.captured x k) := setKey_waiting hkw k true
  obtain ⟨-, hcaptured⟩ := stepDuringKeyWait
  obtain ⟨u, hstep, hx, hupc, hukw, huregs, -⟩ := hcaptured (setKey k true t) x k (hpress ▸ rfl)
  rw [hpress] at hupc huregs
  exact ⟨u, congrArg Prod.fst (transact_step_of_next hstep), hx, hupc.trans (congrArg (· + 2) hpc), hukw,
    fun r hr => (huregs r hr).trans (hregs r)⟩

end

/-- Settles O49: the wait outlasts every list of operations that leave it; then a press and a step end it, or a
reset. -/
theorem keyWaitLifecycle : Obligations.KeyWaitLifecycle := by
  intro s t x ops hexec hops
  have hwait : AwaitsKey x s (transactAll ops t) := (awaitsKey_of_exec hexec).after_transactAll hops
  refine ⟨hwait.kw, hwait.pc, hwait.regs, fun k => ?_, ?_⟩
  · obtain ⟨u, hrun, hu⟩ := hwait.press_then_step k
    rw [transactAll_append, hrun]
    exact hu
  · rw [transactAll_append]
    rfl

end Sys2Proof.Machine
end

section
/-! Errors (60_exceptions.md R350 to R353): each instruction fails where the table of R350 says, and a step reports the
error of the fetch, of the decoder or of the instruction, with the word and the PC. -/

namespace Sys2Proof.Machine

/-! ## The table (R350) -/

/-- An answer is an error exactly where e names one, and that error. -/
def AnswersError (r : Result) (e : Option Fault) : Prop :=
  (e = none → ∃ t, r = .next t) ∧ ∀ f, e = some f → r = .fault f

theorem AnswersError.of_cases {q : Prop} [Decidable q] {r : Result} {f : Fault}
    (hcases : (¬ q ∧ ∃ t, r = .next t) ∨ (q ∧ r = .fault f)) : AnswersError r (if q then some f else none) := by
  rcases hcases with ⟨hq, hnext⟩ | ⟨hq, hfault⟩
  · rw [if_neg hq]
    exact ⟨fun _ => hnext, fun _ => nofun⟩
  · rw [if_pos hq]
    exact ⟨nofun, fun _ h => Option.some.inj h ▸ hfault⟩

/-- The bytes DRW reads do not all exist: the condition of R350, which asks nothing of an empty sprite. -/
theorem not_inRange_iff (a n : Nat) : ¬ InRange a n ↔ n > 0 ∧ a + n - 1 > 0xFFF := by
  simp only [InRange]
  omega

/-- The nine instructions of the table by all each can do; the others always answer a next state. -/
theorem exec_answersError (i : Instr) (s : State) : AnswersError (exec i s) (errorOf i s) := by
  cases i
  case ret => exact .of_cases ((exec_ret_cases s).imp_left fun ⟨h, e⟩ => ⟨Nat.ne_of_gt h, _, e⟩)
  case call nnn => exact .of_cases ((exec_call_cases nnn s).imp_left fun ⟨h, e⟩ => ⟨Nat.ne_of_lt h, _, e⟩)
  case skp x => exact .of_cases ((exec_skp_cases x s).imp_left fun ⟨h, e⟩ => ⟨Nat.not_le_of_lt h, _, e⟩)
  case sknp x => exact .of_cases ((exec_sknp_cases x s).imp_left fun ⟨h, e⟩ => ⟨Nat.not_le_of_lt h, _, e⟩)
  case ldFVx x => exact .of_cases ((exec_ldFVx_cases x s).imp_left fun ⟨h, e⟩ => ⟨Nat.not_le_of_lt h, _, e⟩)
  case ldBVx x => exact .of_cases ((exec_ldBVx_cases x s).imp_left fun ⟨h, e⟩ => ⟨Nat.not_lt.2 h, _, e⟩)
  case ldMemVx x => exact .of_cases ((exec_ldMemVx_cases x s).imp_left fun ⟨h, e⟩ => ⟨Nat.not_lt.2 h, _, e⟩)
  case ldVxMem x => exact .of_cases ((exec_ldVxMem_cases x s).imp_left fun ⟨h, e⟩ => ⟨Nat.not_lt.2 h, _, e⟩)
  case drw x y n =>
    have hbytes := not_inRange_iff s.i.toNat n.val
    exact .of_cases ((exec_drw_cases x y n s).imp (fun ⟨h, e⟩ => ⟨fun hq => hbytes.2 hq h, _, e⟩)
      (And.imp_left hbytes.1))
  all_goals exact ⟨fun _ => ⟨_, rfl⟩, fun _ => nofun⟩

/-- Settles O9: `exec_answersError` for every instruction and state. -/
theorem instructionsFailExactlyWhenTheTableSays : Obligations.InstructionsFailExactlyWhenTheTableSays :=
  exec_answersError

theorem exec_eq_fault_iff {i : Instr} {s : State} {f : Fault} : exec i s = .fault f ↔ errorOf i s = some f := by
  obtain ⟨hnext, hfault⟩ := exec_answersError i s
  refine ⟨fun h => ?_, hfault f⟩
  cases he : errorOf i s with
  | none =>
    obtain ⟨t, ht⟩ := hnext he
    cases ht.symm.trans h
  | some g =>
    cases (hfault g he).symm.trans h
    rfl

/-! ## The errors of a step (R351, R353) -/

theorem kw_of_step_eq_fault {s : State} {f : Fault} (h : step s = .fault f) : s.kw = .notWaiting := by
  cases hkw : s.kw with
  | notWaiting => rfl
  | waiting x => cases (step_waiting s x hkw).symm.trans h
  | captured x k => cases (step_captured s x k hkw).symm.trans h

theorem fetch_eq_none_iff (s : State) : fetch s = none ↔ 0xFFE < s.pc.toNat := by
  simp [fetch]

theorem decode_eq_none_iff (w : Word) : decode w = none ↔ wordWellFormed w = false := by
  rw [← Option.not_isSome_iff_eq_none, decode_isSome_iff, Bool.not_eq_true]

/-- Settles O10: a pending key-wait raises nothing, and without one a step fails in one of the three cases of
`step_cases`, each with its own error. -/
theorem stepErrorsInPriorityOrder : Obligations.StepErrorsInPriorityOrder := by
  refine fun s f => ⟨fun h => ?_, ?_⟩
  · have hkw := kw_of_step_eq_fault h
    refine ⟨hkw, ?_⟩
    rcases step_cases s hkw with ⟨hfetch, e⟩ | ⟨w, hfetch, hdecode, e⟩ | ⟨w, i, hfetch, hdecode, e⟩
    · cases e.symm.trans h
      exact .inl ⟨(fetch_eq_none_iff s).1 hfetch, rfl⟩
    · cases e.symm.trans h
      exact .inr ⟨w, hfetch, .inl ⟨(decode_eq_none_iff w).1 hdecode, rfl⟩⟩
    · exact .inr ⟨w, hfetch, .inr ⟨i, hdecode, exec_eq_fault_iff.1 (e.symm.trans h)⟩⟩
  · rintro ⟨hkw, ⟨hpc, rfl⟩ | ⟨w, hfetch, ⟨hword, rfl⟩ | ⟨i, hdecode, herror⟩⟩⟩
    · exact step_eq_memoryOutOfRange hkw hpc
    · exact step_eq_unrecognized hkw hfetch ((decode_eq_none_iff w).2 hword)
    · exact (step_eq_exec hkw hfetch hdecode).trans (exec_eq_fault_iff.2 herror)

/-- Every error of the table records the word of the instruction and the PC. -/
theorem errorOf_record {i : Instr} {s : State} {f : Fault} (h : errorOf i s = some f) :
    f.record = some (some (encode i), s.pc) := by
  cases i
  case call | ret | drw | ldBVx | ldMemVx | ldVxMem | skp | sknp | ldFVx =>
    obtain ⟨-, hf⟩ := Option.ite_none_right_eq_some.1 h
    cases hf
    rfl
  all_goals cases h

/-- A ROM that fits lands in memory (R362). -/
theorem hostLoad_eq_next {rom : List Byte} (s : State) (h : rom.length ≤ Config.maxRom) :
    hostLoad rom s = .next (s.setMem (Memory.writeAll s.mem Config.progStart rom)) :=
  if_neg (Nat.not_lt.2 h)

/-- A longer ROM is refused (R362). -/
theorem hostLoad_eq_fault {rom : List Byte} (s : State) (h : Config.maxRom < rom.length) :
    hostLoad rom s = .fault (.romTooLarge rom.length) :=
  if_pos h

/-- Settles O11: the word of an instruction that fails is the one fetched, since decoding loses no bit of it. -/
theorem errorsRecordWordAndPc : Obligations.ErrorsRecordWordAndPc := by
  refine ⟨fun s f h => ?_, fun rom s f h => ?_⟩
  · obtain ⟨-, ⟨hpc, rfl⟩ | ⟨w, hfetch, ⟨-, rfl⟩ | ⟨i, hdecode, herror⟩⟩⟩ := (stepErrorsInPriorityOrder s f).1 h
    · rw [fetch_outside s hpc]
      rfl
    · rw [hfetch]
      rfl
    · rw [hfetch, errorOf_record herror, encode_of_decode hdecode]
  · rcases Nat.lt_or_ge Config.maxRom rom.length with hlong | hfits
    · cases (hostLoad_eq_fault s hlong).symm.trans h
      rfl
    · cases (hostLoad_eq_next s hfits).symm.trans h

end Sys2Proof.Machine
end

section
/-! The host's operations (60_exceptions.md R360 to R372): what each does to the state, and that none breaks the
invariants. -/

namespace Sys2Proof.Machine

/-! ## Ticks (R360) -/

theorem countDown_toNat (t : Byte) : (countDown t).toNat = t.toNat - 1 := by
  unfold countDown
  split
  · next h => rw [h]; rfl
  · next h => bv_omega

theorem onlyWrites_tickTimers (s : State) : OnlyWrites { delay := true, sound := true } s (tickTimers s).1 := by
  simp [OnlyWrites, tickTimers]

theorem tickTimers_beeps_iff_toNat (s : State) : (tickTimers s).2 = true ↔ s.st.toNat = 1 :=
  (tickTimers_beeps_iff s).trans BitVec.toNat_inj.symm

/-- Settles O51, by induction on the number of ticks: the first of n + 1 ticks beeps if ST is 1, and one of the other n
if ST is above. -/
theorem ticksCountDownAndBeepOnce : Obligations.TicksCountDownAndBeepOnce := by
  intro n s
  induction n generalizing s with
  | zero =>
    have hnever : ¬ (1 ≤ s.st.toNat ∧ s.st.toNat ≤ 0) := by omega
    exact ⟨rfl, rfl, (if_neg hnever).symm, rfl, .same _ s⟩
  | succ n ih =>
    obtain ⟨hdt, hst, hbeeps, hpc, hframe⟩ := ih (tickTimers s).1
    have hdt' : (tickTimers s).1.dt.toNat = s.dt.toNat - 1 := countDown_toNat s.dt
    have hst' : (tickTimers s).1.st.toNat = s.st.toNat - 1 := countDown_toNat s.st
    refine ⟨?_, ?_, ?_, hpc, (onlyWrites_tickTimers s).trans hframe⟩
    · rw [tickTimes, hdt, hdt']
      omega
    · rw [tickTimes, hst, hst']
      omega
    · simp only [tickTimes, hbeeps, hst', tickTimers_beeps_iff_toNat]
      split_ifs <;> omega

/-! ## Load (R362) -/

theorem onlyWrites_load (rom : List Byte) (s : State) :
    OnlyWrites (writtenBy (.load rom)) s (s.setMem (Memory.writeAll s.mem Config.progStart rom)) := by
  have hmem : ∀ a, ¬ (0x200 ≤ a ∧ a < 0x200 + rom.length) →
      Memory.read (Memory.writeAll s.mem Config.progStart rom) a = Memory.read s.mem a :=
    fun a h => (Memory.read_writeAll s.mem Config.progStart a rom).trans (if_neg h)
  simpa [OnlyWrites, writtenBy] using hmem

/-- Settles O52: the two answers of load. -/
theorem loadWritesTheProgram : Obligations.LoadWritesTheProgram := by
  refine fun rom s => ⟨fun h => ⟨_, hostLoad_eq_next s h, fun k hk => ?_, rfl, onlyWrites_load rom s⟩, fun h => ?_⟩
  · exact Memory.read_writeAll_inside s.mem Config.progStart k rom hk
  · exact congrArg (settle s) (hostLoad_eq_fault s h)

/-! ## Keys (R364) -/

/-- All set_key does: a press while a key is awaited is captured, and anything else only writes the latch. -/
theorem setKey_cases (k : Key) (pressed : Bool) (s : State) :
    (∃ x, s.kw = .waiting x ∧ pressed = true ∧
        setKey k pressed s = (s.setKeyLatch k pressed).setKw (.captured x k)) ∨
      ((∀ x, s.kw = .waiting x → pressed = false) ∧ setKey k pressed s = s.setKeyLatch k pressed) := by
  cases hkw : s.kw with
  | waiting x =>
    cases pressed with
    | true => exact .inl ⟨x, rfl, rfl, setKey_waiting hkw k true⟩
    | false => exact .inr ⟨fun _ _ => rfl, setKey_waiting hkw k false⟩
  | captured | notWaiting => exact .inr ⟨nofun, by simp only [setKey, hkw]⟩

theorem onlyWrites_setKey (k : Key) (pressed : Bool) (s : State) :
    OnlyWrites (writtenBy (.setKey k pressed)) s (setKey k pressed s) := by
  rcases setKey_cases k pressed s with ⟨x, -, -, e⟩ | ⟨-, e⟩
  · simp +contextual [e, OnlyWrites, writtenBy, State.getKey_setKeyLatch]
  · simp +contextual [e, OnlyWrites, writtenBy, State.getKey_setKeyLatch]

/-- Settles O50: the press that is captured, and every other write of a latch. -/
theorem setKeyLatchesAndCaptures : Obligations.SetKeyLatchesAndCaptures := by
  intro k pressed s
  have hlatch : (s.setKeyLatch k pressed).getKey k = pressed := by simp [State.getKey_setKeyLatch]
  have hframe := onlyWrites_setKey k pressed s
  rcases setKey_cases k pressed s with ⟨x, hkw, rfl, e⟩ | ⟨hpress, e⟩
  · rw [e] at hframe ⊢
    refine ⟨hlatch, rfl, fun y hy => ?_, fun hnone => absurd ⟨x, hkw⟩ hnone, hframe⟩
    cases hkw.symm.trans hy
    rfl
  · rw [e] at hframe ⊢
    refine ⟨hlatch, rfl, fun x hx => ?_, fun _ => rfl, hframe⟩
    rw [hpress x hx]
    exact hx

/-! ## The redraw flag and the metadata (R367, R368, R372) -/

theorem onlyWrites_clearRedrawPending (s : State) :
    OnlyWrites (writtenBy .clearRedrawPending) s (clearRedrawPending s) := by
  simp [OnlyWrites, writtenBy, clearRedrawPending]

/-- Settles O55: a read, one write of REDRAW, and nothing. -/
theorem hostFlagOperations : Obligations.HostFlagOperations :=
  fun s _ => ⟨rfl, ⟨rfl, rfl, onlyWrites_clearRedrawPending s⟩, rfl⟩

/-! ## The operation table (R370) -/

/-- Settles O56: the frame of each operation, a refused load and the readers leaving the whole state. -/
theorem hostOperationsWriteOnlyTheirColumn : Obligations.HostOperationsWriteOnlyTheirColumn := by
  intro op s hcreate hstep hreset
  cases op with
  | create => exact absurd rfl hcreate
  | step => exact absurd rfl hstep
  | reset => exact absurd rfl hreset
  | load rom =>
    rcases transact_load_cases rom s with ⟨-, e⟩ | ⟨-, e⟩
    · rw [e]
      exact ⟨rfl, onlyWrites_load rom s⟩
    · rw [e]
      exact ⟨rfl, .same _ s⟩
  | tickTimers => exact ⟨rfl, onlyWrites_tickTimers s⟩
  | setKey k pressed =>
    obtain ⟨-, hpc, -⟩ := setKeyLatchesAndCaptures k pressed s
    exact ⟨hpc, onlyWrites_setKey k pressed s⟩
  | clearRedrawPending => exact ⟨rfl, onlyWrites_clearRedrawPending s⟩
  | framebuffer | redrawPending | setMetadata => exact ⟨rfl, .same _ s⟩

/-! ## The invariants (R370; 40_engine.md R137, 41_flow.md R160) -/

/-- A core that has just been created or reset meets the invariant if its memory is in canonical form. -/
theorem inv_of_start {s : State} (hwf : Memory.wf s.mem = true) (hpc : s.pc = 0x200) (hsp : s.sp = 0)
    (hkw : s.kw = .notWaiting) : Inv s := by
  refine ⟨hwf, hpc ▸ by decide, fun k hk => ?_, fun hne => absurd hkw hne⟩
  rw [hsp] at hk
  exact absurd hk (Nat.not_lt_zero _)

theorem step_keeps_inv {s t : State} (h : step s = .next t) (hinv : Inv s) : Inv t := by
  rcases step_eq_next s t h with ⟨_, -, rfl⟩ | ⟨x, k, hkw, rfl⟩ | ⟨w, i, hkw, hfetch, -, hexec⟩
  · exact hinv
  · exact captured_keeps_inv _ hinv (by simp [hkw])
  · exact exec_keeps_inv hexec hinv (fetch_eq_some s w hfetch) hkw

/-- What is written from 0x200 on and ends by 0xFFF keeps the canonical form. -/
theorem wf_writeAll_program {m : Memory} {bytes : List Byte} (h : Memory.wf m = true)
    (hfits : bytes.length ≤ Config.maxRom) : Memory.wf (Memory.writeAll m Config.progStart bytes) = true := by
  have hend : Config.progStart + Config.maxRom = 0x1000 := rfl
  exact Memory.wf_writeAll m _ bytes h (.inr (by omega))

/-- A press is captured only while a wait is pending, so PC is already fetchable. -/
theorem setKey_keeps_inv {s : State} (k : Key) (pressed : Bool) (h : Inv s) : Inv (setKey k pressed s) := by
  rcases setKey_cases k pressed s with ⟨x, hkw, -, e⟩ | ⟨-, e⟩
  · obtain ⟨hwf, hpc, hstack, hfetchable⟩ := h
    rw [e]
    exact ⟨hwf, hpc, hstack, fun _ => hfetchable (by simp [hkw])⟩
  · rw [e]
    exact h

/-- A reset fills exactly the program memory, and everything else of the invariant is as after create. -/
theorem hostReset_keeps_inv {s : State} (h : Inv s) : Inv (hostReset s) := by
  obtain ⟨hwf, -⟩ := h
  refine inv_of_start ?_ rfl rfl rfl
  simp only [hostReset]
  exact wf_writeAll_program hwf (by simp only [freshBytes, List.length_map, List.length_range, Nat.le_refl])

/-- A load writes only program memory, and an error leaves the state as it was. -/
theorem transact_load_keeps_inv {s : State} (rom : List Byte) (h : Inv s) : Inv (transact (.load rom) s).1 := by
  rcases transact_load_cases rom s with ⟨hfits, e⟩ | ⟨-, e⟩
  · obtain ⟨hwf, hrest⟩ := h
    rw [e]
    exact ⟨wf_writeAll_program hwf hfits, hrest⟩
  · rw [e]
    exact h

theorem transact_step_keeps_inv {s : State} (h : Inv s) : Inv (transact .step s).1 := by
  cases hstep : step s with
  | next t => exact transact_step_of_next hstep ▸ step_keeps_inv hstep h
  | fault f => exact transact_step_of_fault hstep ▸ h
  | refused why =>
    have hsame : transact .step s = (s, .refused why) := congrArg (settle s) hstep
    exact hsame ▸ h

/-- The timers, REDRAW and the latches are no part of the invariant. -/
theorem transact_keeps_inv {s : State} (op : HostOp) (h : Inv s) : Inv (transact op s).1 := by
  cases op with
  | create => exact inv_of_start rfl rfl rfl rfl
  | load rom => exact transact_load_keeps_inv rom h
  | step => exact transact_step_keeps_inv h
  | setKey k pressed => exact setKey_keeps_inv k pressed h
  | reset => exact hostReset_keeps_inv h
  | tickTimers | framebuffer | redrawPending | clearRedrawPending | setMetadata => exact h

/-- Settles O59, by induction on the list of operations: each of the ten keeps the invariant. -/
theorem hostOperationsKeepTheInvariants : Obligations.HostOperationsKeepTheInvariants := by
  intro ops s h
  induction ops generalizing s with
  | nil => exact h
  | cons op rest ih => exact ih _ (transact_keeps_inv op h)

end Sys2Proof.Machine
end

section
/-! Reset, create and the end states (70_reset_and_hazards.md R400, R401, R408). -/

namespace Sys2Proof.Machine

/-! ## The end states (R408) -/

theorem decode_of_op1 {w : Word} (h : opOf w = 0x1) : decode w = some (.jp (nnnOf w)) := by
  simp [decode, h]

section
variable {pc : Word} (hpc : pc.toNat ≤ 0xFFE)
include hpc

theorem setWidth_pc_toNat : (pc.setWidth 12).toNat = pc.toNat := by
  rw [BitVec.toNat_setWidth, Nat.mod_eq_of_lt (by omega)]

/-- A fetchable PC leaves the family nibble free, so the word Stopped asks for packs 0x1 and PC. -/
theorem jumpWord_eq_packAddr : 0x1000 ||| pc = packAddr 0x1 (pc.setWidth 12) := by
  have hor : (0x1000 ||| pc).toNat = 0x1000 + pc.toNat := (Nat.two_pow_add_eq_or_of_lt (i := 12) (by omega) 1).symm
  apply BitVec.eq_of_toNat_eq
  rw [packAddr, toNat_append_add, setWidth_pc_toNat hpc, hor]
  rfl

theorem decode_jumpWord : decode (0x1000 ||| pc) = some (.jp (pc.setWidth 12)) := by
  rw [jumpWord_eq_packAddr hpc, decode_of_op1 (opOf_packAddr _ _), nnnOf_packAddr]

end

/-- An error leaves the state, so the next step starts where the failed one did. -/
theorem stepTimes_of_fault {s : State} {f : Fault} (h : step s = .fault f) (n : Nat) : stepTimes n s = s := by
  have hstay : (transact .step s).1 = s := congrArg Prod.fst (transact_step_of_fault h)
  induction n with
  | zero => rfl
  | succ n ih => exact (congrArg (stepTimes n) hstay).trans ih

/-- Settles O12: the word at PC decodes to the jump to PC, a pending key-wait fetches nothing, and a failed step is
tried again from the same state. -/
theorem endStatesPersist : Obligations.EndStatesPersist := by
  refine ⟨fun s ⟨hkw, hpc, hword⟩ => ?_, fun s ⟨x, hkw⟩ => step_waiting s x hkw, fun s f h n => ?_⟩
  · obtain ⟨-, -, hself, -⟩ := jpSetsPc
    have hfetch : fetch s = some (0x1000 ||| s.pc) := (fetch_inside s hpc).trans (congrArg some hword)
    have hstep := step_eq_exec hkw hfetch (decode_jumpWord hpc)
    exact hstep.trans (hself _ s (setWidth_pc_toNat hpc).symm)
  · have hsame := stepTimes_of_fault h n
    exact ⟨hsame, hsame.symm ▸ transact_step_of_fault h⟩

/-! ## The registers of a core just created or reset (10_state.md R48) -/

section
variable {s : State}

theorem getV_of_start (h : s.v = State.create.v) (r : Reg) : s.getV r = 0 := by
  simp [State.getV, h, State.create]

theorem stack_of_start (h : s.stack = State.create.stack) (k : Fin 16) : s.stack[k] = 0 := by
  simp [h, State.create]

theorem getKey_of_start (h : s.keys = State.create.keys) (k : Key) : s.getKey k = false := by
  simp [State.getKey, h, State.create]

theorem pixel_of_start (h : s.fb = clearFrame) (c : Fin 64) (r : Fin 32) : s.fb.pixel c r = false := by
  rw [h, pixel_clearFrame]

end

/-! ## Reset (R401) -/

theorem freshBytes_length (s : State) (n : Nat) : (freshBytes s n).length = n := by
  simp only [freshBytes, List.length_map, List.length_range]

theorem freshBytes_getElem (s : State) {n k : Nat} (h : k < (freshBytes s n).length) :
    (freshBytes s n)[k] = Config.freeByte (s.draws + k) := by
  simp only [freshBytes, List.getElem_map, List.getElem_range]

/-- Below 0x200 a reset writes nothing. -/
theorem read_hostReset_reserved (s : State) {a : Nat} (h : a < 0x200) :
    Memory.read (hostReset s).mem a = Memory.read s.mem a := by
  simp only [hostReset]
  exact Memory.read_writeAll_outside s.mem Config.progStart a _ (.inl h)

/-- Byte k of program memory is draw number k after those already made. -/
theorem read_hostReset_program (s : State) {k : Nat} (h : k < 3584) :
    Memory.read (hostReset s).mem (0x200 + k) = Config.freeByte (s.draws + k) := by
  have hk : k < (freshBytes s Config.maxRom).length := by rwa [freshBytes_length]
  simp only [hostReset]
  rw [Memory.read_writeAll_inside s.mem Config.progStart k _ hk, freshBytes_getElem]

theorem hostReset_shiftSource (s : State) : (hostReset s).shiftSource = s.shiftSource := by
  simp only [hostReset]

/-- Settles O54: reset writes program memory and gives the registers the values create gives them. -/
theorem resetLeavesTheListedValues : Obligations.ResetLeavesTheListedValues :=
  fun s => ⟨rfl, rfl, rfl, rfl, rfl, rfl, rfl, getV_of_start rfl, stack_of_start rfl, getKey_of_start rfl,
    pixel_of_start rfl, fun _ => read_hostReset_reserved s, fun _ => read_hostReset_program s,
    hostReset_shiftSource s, rfl⟩

/-! ## Create (R400) -/

/-- Settles O53: nothing is listed in memory, so every byte reads as the font or as 0x00. -/
theorem createLeavesTheListedValues : Obligations.CreateLeavesTheListedValues :=
  ⟨fun _ => rfl, rfl, rfl, rfl, rfl, rfl, rfl, rfl, getV_of_start rfl, stack_of_start rfl, getKey_of_start rfl,
    pixel_of_start rfl, fontBase_le, unlistedByte_glyph, unlistedByte_outside⟩

end Sys2Proof.Machine
end

section
/-! The word of every instruction decodes to it, and no two rows of the opcode map overlap (30_encoding.md R103,
R104). -/

namespace Sys2Proof.Machine

/-! ## Decoding a packed word -/

section
variable (x y n : Fin 16) (nn : Byte)

theorem decode_pack4_op8 : decode (pack4 0x8 x y n) = decodePair x y n.val := by
  rw [decode_of_op8 _ (opOf_pack4 ..), xOf_pack4, yOf_pack4, nOf_pack4]

theorem decode_packByte_opE : decode (packByte 0xE x nn) = decodeKey x nn.toNat := by
  rw [decode_of_opE _ (opOf_packByte ..), xOf_packByte, nnOf_packByte]

theorem decode_packByte_opF : decode (packByte 0xF x nn) = decodeMisc x nn.toNat := by
  rw [decode_of_opF _ (opOf_packByte ..), xOf_packByte, nnOf_packByte]

end

/-- The row of each instruction decides the case: CLS and RET are single words, families 8, E and F have tables of
their own, and in every other family the op nibble picks the instruction, in 5 and 9 with the low nibble 0. -/
theorem decode_encode (i : Instr) : decode (encode i) = some i := by
  cases i
  case cls | ret => decide
  case ldReg x y | orReg x y | andReg x y | xorReg x y | addReg x y | sub x y | shr x y | subn x y | shl x y =>
    exact decode_pack4_op8 x y _
  case skp x | sknp x => exact decode_packByte_opE x _
  case ldVxDt x | ldVxK x | ldDtVx x | ldStVx x | addIVx x | ldFVx x | ldBVx x | ldMemVx x | ldVxMem x =>
    exact decode_packByte_opF x _
  case jp | call | ldI | jpV0 | seImm | sneImm | ldImm | addImm | rnd | seReg | sneReg | drw => simp [encode, decode]

/-- Settles O2: the two bytes make the encoded word again, and that word decodes to the instruction. -/
theorem decodeOfEncodeIsTheInstruction : Obligations.DecodeOfEncodeIsTheInstruction :=
  fun i rest => decodeBytes_of_decode (encode i) i rest (decode_encode i)

/-- Settles O3: the fields a decoded instruction keeps, and the nibbles its row fixes, are the whole word. -/
theorem encodeOfDecodeIsTheWord : Obligations.EncodeOfDecodeIsTheWord :=
  fun _ _ => encode_of_decode

/-! ## No two rows match one word -/

/-- The match words of two rows differ in a bit that both masks fix. -/
def RowsConflict (p q : OpcodeRow) : Prop := p.bits &&& q.mask ≠ q.bits &&& p.mask

theorem RowsConflict.symm {p q : OpcodeRow} (h : RowsConflict p q) : RowsConflict q p := Ne.symm h

/-- A word both rows match carries both match words on the bits that both masks fix. -/
theorem not_rowsConflict_of_admits {p q : OpcodeRow} {w : Word} (hp : p.admits w = true) (hq : q.admits w = true) :
    ¬ RowsConflict p q := by
  simp only [OpcodeRow.admits, beq_iff_eq] at hp hq
  rw [RowsConflict, not_not, ← hp, ← hq]
  ac_rfl

theorem opcodeRows_pairwise_rowsConflict : opcodeRows.Pairwise RowsConflict := by
  unfold RowsConflict
  decide

theorem opcodeRow_eq_of_admits {p q : OpcodeRow} {w : Word} (hp : p ∈ opcodeRows) (hq : q ∈ opcodeRows)
    (hpw : p.admits w = true) (hqw : q.admits w = true) : p = q := by
  have : Std.Symm RowsConflict := ⟨fun _ _ => RowsConflict.symm⟩
  by_contra hne
  exact not_rowsConflict_of_admits hpw hqw (opcodeRows_pairwise_rowsConflict.forall hp hq hne)

/-- The row with the name of the decoded instruction. -/
theorem exists_row_of_decode {w : Word} {i : Instr} (h : decode w = some i) :
    ∃ row ∈ opcodeRows, row.mnemonic = i.mnemonic ∧ row.admits w = true :=
  encode_of_decode h ▸ encodesInTable i

/-- Settles O4: the rows match what the encoder writes, and any two of them disagree on a bit both fix. -/
theorem decodingFollowsTheOpcodeMap : Obligations.DecodingFollowsTheOpcodeMap :=
  ⟨fun _ _ => exists_row_of_decode, decode_eq_none_iff, fun _ _ hp _ hq => opcodeRow_eq_of_admits hp hq⟩

/-! ## Words written out -/

/-- Settles O1: twenty words of the map and six that no row matches. -/
theorem specWordsDecode : Obligations.SpecWordsDecode := by
  unfold Obligations.SpecWordsDecode
  decide

end Sys2Proof.Machine
end
